-- ==== Sys2Proof/Word.lean ====
section
/-! DEFINITION. The word type of the machine: a byte (00_scope.md R6). No datum in the machine is wider. -/

namespace Sys2Proof

/-- A byte: 8 bits, an unsigned integer in [0, 255], bit 7 the most significant (R6). -/
abbrev Byte := BitVec 8

end Sys2Proof
end

