-- ==== Sys2Proof/Machine/State.lean ====
section
/-! DEFINITION. The state of the machine, exactly what 10_state.md R20 lists, as plain data; the errors; the reasons a
step can stop; the state at reset (R37). -/

namespace Sys2Proof.Machine

/-- Memory: the cells that differ from what an unlisted address reads as (`Memory.unlisted`), addresses strictly rising
(`Memory.wf`, Sys2Proof/Machine/Ops.lean). MEM[0..N-1] of R20 and R33. -/
abbrev Memory := List Host.Cell

/-- The eight 8-bit general registers x[0] to x[7]; none is hardwired (R21, R23). -/
abbrev RegFile := Vector Byte 8

/-- The flags register FL: three independent 1-bit fields with no packed layout (R28). -/
structure Flags where
  /-- `FL.E`. -/
  equal : Bool
  /-- `FL.G`. -/
  greater : Bool
  /-- `FL.L`. -/
  less : Bool
  deriving DecidableEq, Repr

/-- The errors of the core (60_exceptions.md R150). They carry no numeric code (R150, R167). -/
inductive CoreError where
  /-- A memory access at an address outside [0, N) (R151). -/
  | outOfBounds (addr : Nat)
  /-- A register access with an index outside [0, 8) (R152). -/
  | invalidRegister (index : Byte)
  /-- An ALU request the ALU does not define. Nothing raises it (41_alu.md R114, R153; log 17). -/
  | unsupportedAluOp
  /-- An unknown opcode where STRICT_UNKNOWN holds (44_system.md R142). -/
  | unknownOpcode (opcode : Byte) (addr : Nat)
  deriving DecidableEq, Repr

/-- The run state (R31). `halted` and `faulted` are terminal and distinct. -/
inductive RunState where
  | running
  | halted
  | faulted (e : CoreError)
  deriving DecidableEq, Repr

/-- A record `UnknownOpcode(byte, addr)` of the diagnostic trace (R35; log 10). -/
structure DiagRecord where
  opcode : Byte
  addr : Nat
  deriving DecidableEq, Repr

/-- The whole state of one machine instance (R20): there is nothing else (R32, R36, R38). -/
structure State where
  /-- `MEM`. -/
  mem : Memory
  /-- `x[0..7]`. -/
  x : RegFile
  /-- `FL`. -/
  fl : Flags
  /-- `pc`, a natural number that never wraps (R25, R27; log 5). -/
  pc : Nat
  /-- `run`. -/
  run : RunState
  /-- `OUT`, oldest first (R34). -/
  out : List Byte
  /-- `DIAG`, oldest first (R35). -/
  diag : List DiagRecord
  deriving DecidableEq, Repr

/-- Why a step answers no next state: only that a machine which is not Running has no step (40_execution_cycle.md R90;
log 7). A fatal error is not one of these: it is the next state in which `run` is Faulted (R93; log 6). -/
inductive Fault where
  /-- Raised by `stepWith` in Halted. Safe: the hardware has no step there either. -/
  | halted
  /-- Raised by `stepWith` in Faulted(e); it surfaces e to the caller (R158). Safe: the hardware has no step there either. -/
  | faulted (e : CoreError)
  deriving DecidableEq, Repr

/-- Why an instruction is refused. -/
inductive Refusal where
  /-- An instruction without a meaning yet, raised by `exec` only; no arm of it does. Safe. -/
  | notModelled (mnemonic : String)
  deriving DecidableEq, Repr

/-- The answer of a step of this machine. -/
abbrev StepOutcome := Host.Outcome State Fault Refusal

/-- All registers zero. -/
def RegFile.zero : RegFile := #v[0, 0, 0, 0, 0, 0, 0, 0]

/-- Reset is machine construction: everything zero, Running, traces empty (R37, 70_reset_and_hazards.md R180).
No program is in memory: an image is placed from outside before the first step (R181; log 16). -/
def State.reset : State where
  mem := []
  x := RegFile.zero
  fl := { equal := false, greater := false, less := false }
  pc := 0
  run := .running
  out := []
  diag := []

end Sys2Proof.Machine
end

