-- ==== Sys2Proof/Machine/Flags.lean ====
section
/-! DEFINITION. The flags: CMP's unsigned three-way comparison, the only computation that writes them
(10_state.md R28 to R30, 41_alu.md R113). -/

namespace Sys2Proof.Machine

/-- FL before the first comparison: (0,0,0) (10_state.md R29). -/
def Flags.none : Flags := { equal := false, greater := false, less := false }

/-- FL after a comparison of `a` with `b` as unsigned bytes: exactly one flag is 1 (41_alu.md R113). -/
def Flags.compare (a b : Byte) : Flags :=
  if a = b then { equal := true, greater := false, less := false }
  else if b.toNat < a.toNat then { equal := false, greater := true, less := false }
  else { equal := false, greater := false, less := true }

/-- How many of the three flags are 1. -/
def Flags.count (f : Flags) : Nat := f.equal.toNat + f.greater.toNat + f.less.toNat

end Sys2Proof.Machine
end

