-- ==== Sys2Proof/Config.lean ====
section
/-! DEFINITION. The parameters of the machine (00_scope.md R5): what an implementation fixes, and no state.
The values in force by default stand in Sys2Proof/Decode.lean (`Config.standard`), beside the decoder that reads them,
and so does the check that a configuration meets R5's conditions (`Config.Legal`).
The spec leaves no value after an instruction undefined, so there is no free value here. -/

namespace Sys2Proof

/-- The parameters of R5. MAX_CYCLES is the host's and is the argument of `runFor` (log 13). -/
structure Config where
  /-- `N`, the number of memory cells. -/
  memSize : Nat
  /-- `OP_HLT`. -/
  opHlt : Byte
  /-- `OP_LDI`. -/
  opLdi : Byte
  /-- `OP_PRN`. -/
  opPrn : Byte
  /-- `OP_MUL`. -/
  opMul : Byte
  /-- `OP_CMP`. -/
  opCmp : Byte
  /-- `OP_JMP`. -/
  opJmp : Byte
  /-- `OP_JEQ`. -/
  opJeq : Byte
  /-- `OP_JNE`. -/
  opJne : Byte
  /-- `ADD_DISPATCH`: whether an ADD opcode is decoded (30_encoding.md R80). -/
  addDispatch : Bool
  /-- `OP_ADD`, of use only with `addDispatch`. -/
  opAdd : Byte
  /-- `STRICT_UNKNOWN`: an unknown opcode is fatal instead of skipped (44_system.md R142). -/
  strictUnknown : Bool
  deriving DecidableEq, Repr

end Sys2Proof
end

