-- ==== Sys2Proof/Syntax.lean ====
section
/-! DEFINITION. The instructions (30_encoding.md R70, R72, R73). An operand is the whole byte that follows the opcode:
a register index is not masked and is checked only when the register is accessed (10_state.md R22), so every byte value
can stand in every operand place. -/

namespace Sys2Proof

/-- The eight instructions of the dispatch table, one constructor per row of spec/opcode_table.json. -/
inductive Instr where
  /-- `HLT`. -/
  | hlt
  /-- `LDI Rd, imm`: `rd` is operand_a, `imm` is operand_b. -/
  | ldi (rd imm : Byte)
  /-- `PRN Rs`. -/
  | prn (rs : Byte)
  /-- `MUL Rd, Rs`: `rd` is operand_a, `rs` is operand_b. -/
  | mul (rd rs : Byte)
  /-- `CMP Ra, Rb`: `ra` is operand_a, `rb` is operand_b. -/
  | cmp (ra rb : Byte)
  /-- `JMP Rt`. -/
  | jmp (rt : Byte)
  /-- `JEQ Rt`. -/
  | jeq (rt : Byte)
  /-- `JNE Rt`. -/
  | jne (rt : Byte)
  deriving DecidableEq, Repr

/-- `SP_INDEX`: register 7 is the stack pointer by convention only; no rule of the machine depends on it
(10_state.md R23, 00_scope.md R5). -/
abbrev spIndex : Byte := 7

/-- What the decoder answers for the three fetched bytes: an arm of 40_execution_cycle.md R92.
ADD and the unknown byte have no row in spec/opcode_table.json, so they are no constructors of `Instr` (log 3). -/
inductive Decoded where
  /-- An instruction of the dispatch table. -/
  | instr (i : Instr)
  /-- `ADD Rd, Rs`, only where the configuration dispatches it (R80). -/
  | add (rd rs : Byte)
  /-- A byte outside the opcode map (R75). -/
  | unknown (opcode : Byte)
  deriving DecidableEq, Repr

end Sys2Proof
end

