-- ==== Sys2Proof/WellFormed.lean ====
section
/-! DEFINITION. When an instruction is one that an assembler would write: every register operand names one of the
registers R0 to R7 (30_encoding.md R78, 92_eei_decisions.md "Launch premises").
An instruction that is not well-formed still decodes and runs: it raises InvalidRegister where it accesses the register
(10_state.md R22). -/

namespace Sys2Proof

/-- The byte is a register index in [0, 8) (R22). -/
def isRegister (i : Byte) : Bool := decide (i.toNat < 8)

/-- Every operand of the instruction that is a register index names a register (R72's table, R78). -/
def Instr.wellFormed : Instr → Bool
  | .hlt => true
  | .ldi rd _ => isRegister rd
  | .prn rs => isRegister rs
  | .mul rd rs => isRegister rd && isRegister rs
  | .cmp ra rb => isRegister ra && isRegister rb
  | .jmp rt => isRegister rt
  | .jeq rt => isRegister rt
  | .jne rt => isRegister rt

end Sys2Proof
end

