-- ==== Sys2Proof/Decode.lean ====
section
/-! DEFINITION. The opcode map, the decoder and the encoder (30_encoding.md). The decoder is total on the three bytes
every step fetches, and answers by name a byte outside the map (R75). -/

namespace Sys2Proof

/-! ## The opcode map -/

/-- The default parameters (R5, R73). The eight opcode numbers and OP_ADD are PRESUMED, as the spec says of them
(log 1); N is log 2, ADD_DISPATCH log 3, STRICT_UNKNOWN log 12. -/
def Config.standard : Config where
  memSize := 256
  opHlt := 0x01
  opLdi := 0x82
  opPrn := 0x47
  opMul := 0xA2
  opCmp := 0xA7
  opJmp := 0x54
  opJeq := 0x55
  opJne := 0x56
  addDispatch := false
  opAdd := 0xA0
  strictUnknown := false

/-- Bits [7:6] of an opcode byte: the operand count (R71). -/
def operandCountField (b : Byte) : Nat := (b.extractLsb' 6 2).toNat

/-- The opcode map in force: each opcode byte with the operand count of its row (R73, R80). -/
def Config.opcodeRows (c : Config) : List (Byte × Nat) :=
  [(c.opHlt, 0), (c.opLdi, 2), (c.opPrn, 1), (c.opMul, 2), (c.opCmp, 2), (c.opJmp, 1), (c.opJeq, 1), (c.opJne, 1)]
    ++ if c.addDispatch then [(c.opAdd, 2)] else []

/-- The opcode bytes in force. -/
def Config.opcodes (c : Config) : List Byte := c.opcodeRows.map Prod.fst

/-- R5's three conditions on the OP_* values: pairwise distinct, bits [7:6] equal to the operand count, none 0xFF.
They are asked of OP_ADD too where ADD is dispatched (log 19). -/
abbrev Config.Legal (c : Config) : Prop :=
  c.opcodes.Nodup ∧ ∀ row ∈ c.opcodeRows, operandCountField row.1 = row.2 ∧ row.1 ≠ 0xFF

/-! ## Decoding -/

/-- Decoding the three fetched bytes: an exact match of the whole opcode byte (R74, R92), operand_a and operand_b taken
as they stand (R72). -/
def decodeWith (c : Config) (ir operandA operandB : Byte) : Decoded :=
  if ir = c.opHlt then .instr .hlt
  else if ir = c.opLdi then .instr (.ldi operandA operandB)
  else if ir = c.opPrn then .instr (.prn operandA)
  else if ir = c.opMul then .instr (.mul operandA operandB)
  else if ir = c.opCmp then .instr (.cmp operandA operandB)
  else if ir = c.opJmp then .instr (.jmp operandA)
  else if ir = c.opJeq then .instr (.jeq operandA)
  else if ir = c.opJne then .instr (.jne operandA)
  else if c.addDispatch = true ∧ ir = c.opAdd then .add operandA operandB
  else .unknown ir

/-- Decoding under the default parameters. -/
def decode (ir operandA operandB : Byte) : Decoded := decodeWith Config.standard ir operandA operandB

/-- Decoding the first three bytes of a byte sequence; a fetch never has fewer (40_execution_cycle.md R91). -/
def decodeBytes (c : Config) : List Byte → Option Decoded
  | ir :: a :: b :: _ => some (decodeWith c ir a b)
  | _ => none

/-! ## Encoding -/

/-- The opcode byte of an instruction (R73). -/
def Instr.opcode (c : Config) : Instr → Byte
  | .hlt => c.opHlt
  | .ldi _ _ => c.opLdi
  | .prn _ => c.opPrn
  | .mul _ _ => c.opMul
  | .cmp _ _ => c.opCmp
  | .jmp _ => c.opJmp
  | .jeq _ => c.opJeq
  | .jne _ => c.opJne

/-- The operand count of an instruction's row (R73's table, column "Operand count"). -/
def Instr.operandCount : Instr → Nat
  | .hlt => 0
  | .ldi _ _ => 2
  | .prn _ => 1
  | .mul _ _ => 2
  | .cmp _ _ => 2
  | .jmp _ => 1
  | .jeq _ => 1
  | .jne _ => 1

/-- The operand bytes of an instruction, the one at the lowest address first (R70, R78). -/
def Instr.operands : Instr → List Byte
  | .hlt => []
  | .ldi rd imm => [rd, imm]
  | .prn rs => [rs]
  | .mul rd rs => [rd, rs]
  | .cmp ra rb => [ra, rb]
  | .jmp rt => [rt]
  | .jeq rt => [rt]
  | .jne rt => [rt]

/-- The bytes of an instruction, the opcode at the lowest address (R70, R78). -/
def encodeWith (c : Config) (i : Instr) : List Byte := i.opcode c :: i.operands

/-- The bytes of an instruction under the default parameters. -/
def encode (i : Instr) : List Byte := encodeWith Config.standard i

/-- The bytes of `ADD Rd, Rs` where it is dispatched: format F2 (R80). -/
def encodeAdd (c : Config) (rd rs : Byte) : List Byte := [c.opAdd, rd, rs]

/-- The length in bytes of what was decoded: one more than the row's operand count, and 1 for an unknown byte whatever
its bits [7:6] are (R76, 90_conflicts.md C4). -/
def Decoded.length : Decoded → Nat
  | .instr i => 1 + i.operandCount
  | .add _ _ => 3
  | .unknown _ => 1

/-! ## The table's words -/

/-- Byte `k` of an instruction word whose first byte is its least significant one (the opcode table's numbering). -/
def byteOfWord (w k : Nat) : Byte := BitVec.ofNat 8 (w / 256 ^ k)

/-- The instruction the decoder reads from an instruction of `nbits` bits whose bits are `w`. -/
def decodeTableWord (nbits w : Nat) : Option Instr :=
  let w := w % 2 ^ nbits
  match decode (byteOfWord w 0) (byteOfWord w 1) (byteOfWord w 2) with
  | .instr i => some i
  | .add _ _ => none
  | .unknown _ => none

end Sys2Proof
end

