-- ==== Sys2Proof/Machine/Ops.lean ====
section
/-! DEFINITION. The shared operations: memory, registers, the traces, raising an error, ending a step, fetching
(00_scope.md R7; 10_state.md R22; 20_memory.md; 40_execution_cycle.md R91, R93). -/

namespace Sys2Proof.Machine

/-! ## Memory as data -/

/-- What an unlisted address reads as: the reset contents of memory (10_state.md R37; log 15). -/
def Memory.unlisted : Byte := 0x00

/-- The byte at an address. -/
def Memory.read : Memory → Nat → Byte
  | [], _ => Memory.unlisted
  | (k, v) :: m, a => if k = a then v else Memory.read m a

/-- Memory with one byte changed, kept in canonical form. -/
def Memory.write : Memory → Nat → Byte → Memory
  | [], a, v => if v = Memory.unlisted then [] else [(a, v)]
  | (k, w) :: m, a, v =>
    if a < k then (if v = Memory.unlisted then (k, w) :: m else (a, v) :: (k, w) :: m)
    else if a = k then (if v = Memory.unlisted then m else (a, v) :: m)
    else (k, w) :: Memory.write m a v

/-- The canonical form: addresses strictly rising, no entry equal to what an unlisted address reads as. -/
abbrev Memory.wf (m : Memory) : Prop :=
  m.Pairwise (fun p q => p.1 < q.1) ∧ ∀ cell ∈ m, cell.2 ≠ Memory.unlisted

/-! ## The memory port -/

/-- `MemRead(a, 1)` (20_memory.md R51). -/
def memRead (c : Config) (m : Memory) (a : Nat) : Except CoreError Byte :=
  if a < c.memSize then .ok (m.read a) else .error (.outOfBounds a)

/-- `MemWrite(a, 1, v)` (20_memory.md R52). No instruction uses it. -/
def memWrite (c : Config) (m : Memory) (a : Nat) (v : Byte) : Except CoreError Memory :=
  if a < c.memSize then .ok (m.write a v) else .error (.outOfBounds a)

/-! ## The register file -/

/-- `x[i]`, read: the whole byte is the index (10_state.md R22). -/
def RegFile.readAt (x : RegFile) (i : Byte) : Except CoreError Byte :=
  if h : i.toNat < 8 then .ok x[i.toNat] else .error (.invalidRegister i)

/-- `x[i] <- v` (10_state.md R22). -/
def RegFile.writeAt (x : RegFile) (i v : Byte) : Except CoreError RegFile :=
  if h : i.toNat < 8 then .ok (x.set i.toNat v h) else .error (.invalidRegister i)

/-! ## The program counter and the traces -/

/-- `pc <- pc + k`, addition of natural numbers (10_state.md R26, R27). -/
def State.advance (s : State) (k : Nat) : State := { s with pc := s.pc + k }

/-- `pc <- t` for a byte `t` taken as an absolute address (43_control_flow.md R133). -/
def State.jumpTo (s : State) (t : Byte) : State := { s with pc := t.toNat }

/-- `emit(v)` (10_state.md R34). -/
def State.emit (s : State) (v : Byte) : State := { s with out := s.out ++ [v] }

/-- `diag(UnknownOpcode(opcode, addr))` (10_state.md R35). -/
def State.report (s : State) (opcode : Byte) (addr : Nat) : State :=
  { s with diag := s.diag ++ [{ opcode := opcode, addr := addr }] }

/-! ## Taking an error, and ending a step -/

/-- Taking an error, `raise e` of 00_scope.md R7: the only change is `run <- Faulted(e)`. No handler, no saved state;
`pc` keeps the address of the opcode (40_execution_cycle.md R93, 60_exceptions.md R158; log 6).
There is no return from it: Faulted is terminal (R159), so no operation stands beside this one. -/
def State.raise (s : State) (e : CoreError) : State := { s with run := .faulted e }

/-- The end of a step that began in `s`: all of its effects or, after a raise, none but the fault (R93). -/
def State.commit (s : State) : Except CoreError State → StepOutcome
  | .ok t => .next t
  | .error e => .next (s.raise e)

/-! ## Fetch -/

/-- The three bytes of a fetch, local to the step (10_state.md R36). -/
structure Fetched where
  ir : Byte
  operandA : Byte
  operandB : Byte
  deriving DecidableEq, Repr

/-- The three reads of every step, in order, before decoding, whatever the opcode is (40_execution_cycle.md R91). -/
def fetch (c : Config) (s : State) : Except CoreError Fetched := do
  let ir ← memRead c s.mem s.pc
  let a ← memRead c s.mem (s.pc + 1)
  let b ← memRead c s.mem (s.pc + 2)
  return { ir := ir, operandA := a, operandB := b }

/-- The bytes placed at rising addresses from `a` on; a byte whose address does not exist is dropped. -/
def pokeBytes (c : Config) : Memory → Nat → List Byte → Memory
  | m, _, [] => m
  | m, a, b :: bs => pokeBytes c (if a < c.memSize then m.write a b else m) (a + 1) bs

end Sys2Proof.Machine
end

