-- ==== Sys2Proof/Machine/Operands.lean ====
section
/-! DEFINITION. The operand forms (30_encoding.md R72): a register as a source, a register as a destination. An
immediate is the operand byte itself, unchanged, and an operand byte that an instruction does not use is ignored, so
neither needs an operation. -/

namespace Sys2Proof.Machine

/-- A source register operand: its value, or InvalidRegister at the access (10_state.md R22; log 8). -/
def State.readReg (s : State) (i : Byte) : Except CoreError Byte := s.x.readAt i

/-- A destination register operand: the state with the register written, or InvalidRegister (10_state.md R22; log 8). -/
def State.writeReg (s : State) (i v : Byte) : Except CoreError State := do
  let x ← s.x.writeAt i v
  return { s with x := x }

end Sys2Proof.Machine
end

