-- ==== Sys2Proof/Machine/Alu.lean ====
section
/-! DEFINITION. The ALU and its instructions: MUL, CMP, and ADD where it is dispatched (41_alu.md). -/

namespace Sys2Proof.Machine

/-- The closed set of ALU operations (R110). -/
inductive AluOp where
  | add
  | mul
  | cmp
  deriving DecidableEq, Repr

/-- The sum over the natural numbers, reduced modulo 256 (R111, R115). -/
def addMod256 (a b : Byte) : Byte := BitVec.ofNat 8 (a.toNat + b.toNat)

/-- The product over the natural numbers, reduced modulo 256; the high 8 bits are discarded (R112, R115). -/
def mulMod256 (a b : Byte) : Byte := BitVec.ofNat 8 (a.toNat * b.toNat)

/-- The ALU: it reads and writes exactly the register file and the flags passed to it (R110); operand_a is checked
first (R111 to R113). -/
def alu (op : AluOp) (opA opB : Byte) (x : RegFile) (fl : Flags) : Except CoreError (RegFile × Flags) := do
  let a ← x.readAt opA
  let b ← x.readAt opB
  match op with
  | .add => return (← x.writeAt opA (addMod256 a b), fl)
  | .mul => return (← x.writeAt opA (mulMod256 a b), fl)
  | .cmp => return (x, Flags.compare a b)

/-- An ALU instruction: the ALU's effect, then `pc + 3` (R110). -/
def State.aluStep (s : State) (op : AluOp) (opA opB : Byte) : Except CoreError State := do
  let r ← alu op opA opB s.x s.fl
  return { s with x := r.1, fl := r.2, pc := s.pc + 3 }

/-- MUL Rd, Rs (R112). -/
def execMul (rd rs : Byte) (s : State) : StepOutcome := s.commit (s.aluStep .mul rd rs)

/-- CMP Ra, Rb (R113). -/
def execCmp (ra rb : Byte) (s : State) : StepOutcome := s.commit (s.aluStep .cmp ra rb)

/-- ADD Rd, Rs, an instruction only where the configuration dispatches it (R111, 30_encoding.md R80; log 3). -/
def execAdd (rd rs : Byte) (s : State) : StepOutcome := s.commit (s.aluStep .add rd rs)

end Sys2Proof.Machine
end

