-- ==== Sys2Proof/Machine/ControlFlow.lean ====
section
/-! DEFINITION. Control flow: JMP, JEQ, JNE (43_control_flow.md). -/

namespace Sys2Proof.Machine

/-- The taken jump: `pc` replaced by the register's content, which is not checked (R130, R133). -/
def State.takeJump (s : State) (rt : Byte) : Except CoreError State := do
  let t ← s.readReg rt
  return s.jumpTo t

/-- The conditional jump: on the untaken path the register is neither read nor validated (R131, R132; log 8). -/
def State.jumpIf (s : State) (taken : Bool) (rt : Byte) : Except CoreError State :=
  if taken then s.takeJump rt else .ok (s.advance 2)

/-- JMP Rt (R130). -/
def execJmp (rt : Byte) (s : State) : StepOutcome := s.commit (s.takeJump rt)

/-- JEQ Rt, taken where FL.E = 1 (R131). -/
def execJeq (rt : Byte) (s : State) : StepOutcome := s.commit (s.jumpIf s.fl.equal rt)

/-- JNE Rt, taken where FL.E = 0 (R132). -/
def execJne (rt : Byte) (s : State) : StepOutcome := s.commit (s.jumpIf (!s.fl.equal) rt)

end Sys2Proof.Machine
end

