-- ==== Sys2Proof/Machine/DataMove.lean ====
section
/-! DEFINITION. Data move and output: LDI, PRN (42_data_move_output.md). -/

namespace Sys2Proof.Machine

/-- LDI Rd, imm (R120). -/
def execLdi (rd imm : Byte) (s : State) : StepOutcome :=
  s.commit do
    let t ← s.writeReg rd imm
    return t.advance 3

/-- PRN Rs (R121). -/
def execPrn (rs : Byte) (s : State) : StepOutcome :=
  s.commit do
    let v ← s.readReg rs
    return (s.emit v).advance 2

end Sys2Proof.Machine
end

