-- ==== Sys2Proof/Machine/System.lean ====
section
/-! DEFINITION. System: HLT and the unknown-opcode step (44_system.md). -/

namespace Sys2Proof.Machine

/-- HLT (R140). -/
def execHlt (s : State) : StepOutcome := .next { s.advance 1 with run := .halted }

/-- The unknown-opcode step: reported and skipped as one byte (R141), or fatal where STRICT_UNKNOWN holds (R142). -/
def execUnknown (c : Config) (opcode : Byte) (s : State) : StepOutcome :=
  if c.strictUnknown then s.commit (.error (.unknownOpcode opcode s.pc))
  else .next ((s.report opcode s.pc).advance 1)

end Sys2Proof.Machine
end

