-- ==== Sys2Proof/Machine/Dispatch.lean ====
section
/-! DEFINITION. The dispatch table (40_execution_cycle.md R92): one arm per instruction. -/

namespace Sys2Proof.Machine

def exec (i : Instr) (s : State) : Host.Outcome State Fault Refusal :=
  match i with
  | .hlt => Sys2Proof.Machine.execHlt s
  | .ldi rd imm => Sys2Proof.Machine.execLdi rd imm s
  | .prn rs => Sys2Proof.Machine.execPrn rs s
  | .mul rd rs => Sys2Proof.Machine.execMul rd rs s
  | .cmp ra rb => Sys2Proof.Machine.execCmp ra rb s
  | .jmp rt => Sys2Proof.Machine.execJmp rt s
  | .jeq rt => Sys2Proof.Machine.execJeq rt s
  | .jne rt => Sys2Proof.Machine.execJne rt s

end Sys2Proof.Machine
end

