-- ==== Sys2Proof/Machine/Engine.lean ====
section
/-! DEFINITION. The execution engine: fetch, decode, execute, under a configuration (40_execution_cycle.md R90 to R93). -/

namespace Sys2Proof.Machine

/-- The arm of R92 that what was decoded selects. -/
def perform (c : Config) (d : Decoded) (s : State) : StepOutcome :=
  match d with
  | .instr i => exec i s
  | .add rd rs => execAdd rd rs s
  | .unknown opcode => execUnknown c opcode s

/-- One cycle of a Running machine: fetch (R91), decode and execute (R92). -/
def cycle (c : Config) (s : State) : StepOutcome :=
  match fetch c s with
  | .ok f => perform c (decodeWith c f.ir f.operandA f.operandB) s
  | .error e => .next (s.raise e)

/-- One step under a configuration, defined only in Running (R90; log 7). -/
def stepWith (c : Config) (s : State) : StepOutcome :=
  match s.run with
  | .running => cycle c s
  | .halted => .fault .halted
  | .faulted e => .fault (.faulted e)

end Sys2Proof.Machine
end

