-- ==== Sys2Proof/Machine/Step.lean ====
section
/-! DEFINITION. The step of the machine with the default parameters, and the placing of one instruction where it
fetches. -/

namespace Sys2Proof.Machine

/-- One step under the default parameters (00_scope.md R5). -/
def step : State → Host.Outcome State Fault Refusal := stepWith Config.standard

/-- `s` with the instruction of `nbits` bits whose bits are `w` stored at `pc`, `pc + 1`, `pc + 2` (30_encoding.md R70).
It stands for the Loader's writes (70_reset_and_hazards.md R181; log 16). -/
def State.withFetchWord (s : State) (nbits w : Nat) : State :=
  let w := w % 2 ^ nbits
  { s with mem := pokeBytes Config.standard s.mem s.pc [byteOfWord w 0, byteOfWord w 1, byteOfWord w 2] }

end Sys2Proof.Machine
end

