-- ==== Sys2Proof/Machine/HostSide.lean ====
section
/-! DEFINITION. What the host does around the core (70_reset_and_hazards.md R188): it runs it and reads its output; and
the spec's notation for instructions. No step uses this file. -/

namespace Sys2Proof.Machine

/-- A run of at most `k` steps: MAX_CYCLES as the host's guard (40_execution_cycle.md R96, R188; log 13). A machine that
is not Running has no step and stays as it is (R90). -/
def runFor (c : Config) : Nat → State → State
  | 0, s => s
  | k + 1, s =>
    match stepWith c s with
    | .next t => runFor c k t
    | .fault _ => s
    | .refused _ => s

/-- The character of a decimal digit. -/
def digitChar (d : Nat) : Char := Char.ofNat (48 + d)

/-- The decimal numeral of a byte, without sign and without leading zeros (10_state.md R34; log 11). -/
def decimal (v : Byte) : List Char :=
  let n := v.toNat
  if n < 10 then [digitChar n]
  else if n < 100 then [digitChar (n / 10), digitChar (n % 10)]
  else [digitChar (n / 100), digitChar (n / 10 % 10), digitChar (n % 10)]

/-- The text a host shows for OUT: one line per value (R34, R122). -/
def renderOut (out : List Byte) : List Char := out.flatMap fun v => decimal v ++ ['\n']

/-! ## Assembly text, the spec's own notation (30_encoding.md R78) -/

/-- `Rn` for the operand byte n. -/
def registerName (i : Byte) : List Char := 'R' :: decimal i

/-- An instruction in the notation of R78. -/
def assembly : Instr → List Char
  | .hlt => ['H', 'L', 'T']
  | .ldi rd imm => ['L', 'D', 'I', ' '] ++ registerName rd ++ [',', ' '] ++ decimal imm
  | .prn rs => ['P', 'R', 'N', ' '] ++ registerName rs
  | .mul rd rs => ['M', 'U', 'L', ' '] ++ registerName rd ++ [',', ' '] ++ registerName rs
  | .cmp ra rb => ['C', 'M', 'P', ' '] ++ registerName ra ++ [',', ' '] ++ registerName rb
  | .jmp rt => ['J', 'M', 'P', ' '] ++ registerName rt
  | .jeq rt => ['J', 'E', 'Q', ' '] ++ registerName rt
  | .jne rt => ['J', 'N', 'E', ' '] ++ registerName rt

end Sys2Proof.Machine
end

