-- ==== Sys2Proof/Machine/Loader.lean ====
section
/-! DEFINITION. The Loader, an external collaborator (00_scope.md R4): where the image goes (70_reset_and_hazards.md
R181, R183) and the text it is read from, as far as the spec settles it (R182). No instruction and no step uses it. -/

namespace Sys2Proof.Machine

/-- The image's bytes written at rising addresses from `a` on, by `MemWrite` (R181). -/
def placeImage (c : Config) : Memory → Nat → List Byte → Except CoreError Memory
  | m, _, [] => .ok m
  | m, a, b :: bs => do
    let m ← memWrite c m a b
    placeImage c m (a + 1) bs

/-- The launch state of an image: reset, then the image from address 0 (R181). An image longer than N gives
`OutOfBounds(N)` and no state (R183; log 16). -/
def load (c : Config) (image : List Byte) : Except CoreError State := do
  let m ← placeImage c State.reset.mem 0 image
  return { State.reset with mem := m }

/-! ## The text format (R182) -/

/-- What one line of the text is. -/
inductive LineRead where
  /-- Blank or comment only. -/
  | skip
  /-- One byte of the image. -/
  | byte (b : Byte)
  /-- A token that is no base-2 literal in [0, 255]: the Loader's LoadError. -/
  | malformed
  /-- A token whose acceptance the spec leaves to the Loader (R182, 91_not_in_source.md N29; log 18). -/
  | leftOpen
  deriving DecidableEq, Repr

/-- What the whole text is. -/
inductive TextRead where
  | image (bytes : List Byte)
  /-- LoadError: surfaced before execution begins, never reaches the engine (60_exceptions.md R155). -/
  | loadError
  /-- The spec leaves the text's acceptance to the Loader (log 18). -/
  | leftOpen
  deriving DecidableEq, Repr

/-- White space inside a line: space, tab and carriage return, a DESIGN CHOICE (log 18). -/
def isBlank (ch : Char) : Bool := ch = ' ' || ch = '\t' || ch = '\r'

/-- A base-2 digit. -/
def isBinaryDigit (ch : Char) : Bool := ch = '0' || ch = '1'

/-- The value of a numeral of base-2 digits, the most significant first. -/
def binaryValue (digits : List Char) : Nat := digits.foldl (fun n ch => 2 * n + if ch = '1' then 1 else 0) 0

/-- The line without its comment: everything from '#' onward is stripped. -/
def stripComment (line : List Char) : List Char := line.takeWhile (fun ch => ch ≠ '#')

/-- The token without white space after it. -/
def dropTrailingBlanks (token : List Char) : List Char := (token.reverse.dropWhile isBlank).reverse

/-- The digits of a token after a base-2 prefix, if it has one. Which prefixes count is a DESIGN CHOICE (log 18): the spec
leaves "a prefix such as `0b`" to the Loader (91_not_in_source.md N29), and the model takes 0b and 0B as those left open;
a token with any other prefix does not parse as base-2 digits and is malformed. -/
def withoutPrefix : List Char → List Char
  | '0' :: 'b' :: digits => digits
  | '0' :: 'B' :: digits => digits
  | token => token

/-- One line (R182): 8 digits are a byte; digits of another number, a prefix, or white space before the token are left
open where the value is in [0, 255]; anything else is malformed. -/
def readLine (line : List Char) : LineRead :=
  let body := stripComment line
  let token := dropTrailingBlanks body
  let digits := withoutPrefix (token.dropWhile isBlank)
  if body.all isBlank then .skip
  else if token.all isBinaryDigit && token.length = 8 then .byte (BitVec.ofNat 8 (binaryValue token))
  else if digits.all isBinaryDigit && !digits.isEmpty && binaryValue digits < 256 then .leftOpen
  else .malformed

/-- One more line before the rest: a malformed line is a LoadError on any reading of the open ones. -/
def TextRead.cons : LineRead → TextRead → TextRead
  | .malformed, _ => .loadError
  | _, .loadError => .loadError
  | .leftOpen, _ => .leftOpen
  | _, .leftOpen => .leftOpen
  | .skip, .image bs => .image bs
  | .byte b, .image bs => .image (b :: bs)

/-- The text read line by line; `line` holds the current line's characters so far, the last first. -/
def readTextFrom : List Char → List Char → TextRead
  | line, [] => TextRead.cons (readLine line.reverse) (.image [])
  | line, ch :: rest =>
    if ch = '\n' then TextRead.cons (readLine line.reverse) (readTextFrom [] rest) else readTextFrom (ch :: line) rest

/-- The image that a text holds (R182): each non-empty, non-comment line contributes one byte. -/
def readText (text : List Char) : TextRead := readTextFrom [] text

/-- The line of 8 base-2 digits that stands for a byte. -/
def binaryLine (b : Byte) : List Char := (List.range 8).map fun k => if b.getLsbD (7 - k) then '1' else '0'

end Sys2Proof.Machine
end

