-- ==== Sys2Proof/Safety.lean ====
section
/-! DEFINITION. The terms claims use: the invariant of the machine, and which registers an instruction reads and
writes. -/

namespace Sys2Proof.Machine

/-- Memory lists only cells that exist (10_state.md R33: an address is in [0, N)), and is in canonical form, which is the
model's own choice of representation (log 15). -/
def MemoryOk (c : Config) (m : Memory) : Prop := m.wf ∧ ∀ cell ∈ m, cell.1 < c.memSize

/-- FL is one of its four values (10_state.md R29). -/
def FlagsOk (f : Flags) : Prop := f.count ≤ 1

/-- Every record of DIAG names a byte outside the opcode map, at an address from which a step could fetch, where memory
holds that byte (10_state.md R35, 44_system.md R141; a record's content is D9, log 10). -/
def DiagOk (c : Config) (s : State) : Prop :=
  ∀ r ∈ s.diag, r.addr + 2 < c.memSize ∧ r.opcode = s.mem.read r.addr ∧ r.opcode ∉ c.opcodes

/-- The error carries what the rules say it carries: the address, the index, the byte and its address
(60_exceptions.md R151 to R154). -/
def ErrorOk (c : Config) (s : State) : CoreError → Prop
  | .outOfBounds a => c.memSize ≤ s.pc + 2 ∧ a = max s.pc c.memSize
  | .invalidRegister i =>
    8 ≤ i.toNat ∧ s.pc + 2 < c.memSize ∧ (i = s.mem.read (s.pc + 1) ∨ i = s.mem.read (s.pc + 2))
  | .unsupportedAluOp => False
  | .unknownOpcode b a =>
    c.strictUnknown = true ∧ a = s.pc ∧ s.pc + 2 < c.memSize ∧ b = s.mem.read a ∧ b ∉ c.opcodes

/-- The state explains how it stopped. Halted: `pc` is one past an HLT that could be fetched (40_execution_cycle.md R97).
Faulted: it is what the step of the same state in Running answers, so the error is one that the instruction at `pc`
raises there (R93, 60_exceptions.md R152; that a raise changes only `run` is D6, log 6), and it carries what the rules
say. -/
def RunOk (c : Config) (s : State) : Prop :=
  match s.run with
  | .running => True
  | .halted => 0 < s.pc ∧ s.pc + 1 < c.memSize ∧ s.mem.read (s.pc - 1) = c.opHlt
  | .faulted e => stepWith c { s with run := .running } = .next s ∧ ErrorOk c s e

/-- The invariant that every step keeps. Its clause on the form of memory is the model's own choice (log 15). The bound on `pc` is 10_state.md R25's: a fall-through reaches at most N, a jump
at most 255. -/
structure Inv (c : Config) (s : State) : Prop where
  memory : MemoryOk c s.mem
  flags : FlagsOk s.fl
  pc : s.pc ≤ max c.memSize 255
  diag : DiagOk c s
  run : RunOk c s

/-- The registers an instruction reads in a state whose flags are `f`: 10_state.md R24, column "Reads". -/
def regsRead (f : Flags) : Instr → List Byte
  | .hlt => []
  | .ldi _ _ => []
  | .prn rs => [rs]
  | .mul rd rs => [rd, rs]
  | .cmp ra rb => [ra, rb]
  | .jmp rt => [rt]
  | .jeq rt => if f.equal then [rt] else []
  | .jne rt => if f.equal then [] else [rt]

/-- The registers an instruction writes: 10_state.md R24, column "Writes". -/
def regsWritten : Instr → List Byte
  | .hlt => []
  | .ldi rd _ => [rd]
  | .prn _ => []
  | .mul rd _ => [rd]
  | .cmp _ _ => []
  | .jmp _ => []
  | .jeq _ => []
  | .jne _ => []

/-- The two states differ at most in FL.G, FL.L, OUT and DIAG, which no instruction reads (10_state.md R30, R34, R35). -/
def AgreeOnWhatIsRead (s t : State) : Prop :=
  s.mem = t.mem ∧ s.x = t.x ∧ s.fl.equal = t.fl.equal ∧ s.pc = t.pc ∧ s.run = t.run

end Sys2Proof.Machine
end

