-- ==== Sys2Proof/Certificates/Slice0/Obligations.lean ====
section
/-! DEFINITION. The statements for the provers. Each docstring names the rule of spec/ it formalises, or, where a clause
rests on a choice the spec marks as its own or on the model's, the decision D<n> of 92_eei_decisions.md or the log entry.

That an error shows as `run = Faulted(e)` is D6 (log 6). The statements of an instruction's own rule say of a raise only
what that rule says; that it has no other effect is `FaultingStepHasNoOtherEffect`. `State.raise` is the `raise` of
00_scope.md R7.
A statement over every configuration `c` is about `stepWith c`; `step` is `stepWith Config.standard`. -/

open Sys2Proof Sys2Proof.Machine

/-! ## Encoding -/

/-- R74: decoding is an exact match of the whole opcode byte; the operand bytes take no part in it. -/
def Obligations.DecodeMatchesWholeOpcodeByte : Prop :=
  ∀ c : Config, c.Legal → ∀ ir a b : Byte,
    (decodeWith c ir a b = .instr .hlt ↔ ir = c.opHlt) ∧
    (decodeWith c ir a b = .instr (.ldi a b) ↔ ir = c.opLdi) ∧
    (decodeWith c ir a b = .instr (.prn a) ↔ ir = c.opPrn) ∧
    (decodeWith c ir a b = .instr (.mul a b) ↔ ir = c.opMul) ∧
    (decodeWith c ir a b = .instr (.cmp a b) ↔ ir = c.opCmp) ∧
    (decodeWith c ir a b = .instr (.jmp a) ↔ ir = c.opJmp) ∧
    (decodeWith c ir a b = .instr (.jeq a) ↔ ir = c.opJeq) ∧
    (decodeWith c ir a b = .instr (.jne a) ↔ ir = c.opJne) ∧
    (decodeWith c ir a b = .add a b ↔ c.addDispatch = true ∧ ir = c.opAdd) ∧
    (decodeWith c ir a b = .unknown ir ↔ ir ∉ c.opcodes)

/-- Decoding the bytes of any instruction gives it back, under every legal opcode map, whatever bytes follow, with every
operand byte at every value; and so for ADD where it is dispatched. -/
def Obligations.DecodeOfEncodeIsIdentity : Prop :=
  ∀ c : Config, c.Legal → ∀ p q : Byte, ∀ rest : List Byte,
    (∀ i : Instr, decodeBytes c (encodeWith c i ++ p :: q :: rest) = some (.instr i)) ∧
    (c.addDispatch = true → ∀ rd rs : Byte, decodeBytes c (encodeAdd c rd rs ++ p :: q :: rest) = some (.add rd rs))

/-- Encoding what was decoded gives the bytes it was decoded from: no two byte sequences are one instruction but for
bytes that are not part of it. -/
def Obligations.EncodeOfDecodeIsPrefix : Prop :=
  ∀ (c : Config) (ir a b : Byte),
    (∀ i : Instr, decodeWith c ir a b = .instr i → encodeWith c i <+: [ir, a, b]) ∧
    (∀ rd rs : Byte, decodeWith c ir a b = .add rd rs → encodeAdd c rd rs = [ir, a, b])

/-- Words written out from R73's table decode to the instructions they stand for. The opcode numbers are
[from general knowledge, not in source] (D1, log 1). -/
def Obligations.TableWordsDecode : Prop :=
  decode 0b00000001#8 0x00 0x00 = .instr .hlt ∧
  decode 0b10000010#8 0x00 0x2A = .instr (.ldi 0 42) ∧
  decode 0b01000111#8 0x03 0xFF = .instr (.prn 3) ∧
  decode 0b10100010#8 0x04 0x05 = .instr (.mul 4 5) ∧
  decode 0b10100111#8 0x09 0x0A = .instr (.cmp 9 10) ∧
  decode 0b01010100#8 0x02 0x00 = .instr (.jmp 2) ∧
  decode 0b01010101#8 0x02 0x00 = .instr (.jeq 2) ∧
  decode 0b01010110#8 0x03 0x00 = .instr (.jne 3) ∧
  decode 0b10100000#8 0x00 0x01 = .unknown 0xA0

/-- R76: an instruction's length is 1 + its row's operand count, which is 1 + opcode[7:6]; an unknown byte's is 1
whatever its bits [7:6] are; it advances the pc by 1 (where it is not fatal), and the bytes after it are fetched in their
turn. -/
def Obligations.LengthFollowsRowNotTopBits : Prop :=
  (∀ c : Config, c.Legal → ∀ ir a b : Byte,
    (∀ i : Instr, decodeWith c ir a b = .instr i →
      (decodeWith c ir a b).length = 1 + i.operandCount ∧
      (decodeWith c ir a b).length = 1 + operandCountField ir ∧
      (decodeWith c ir a b).length = (encodeWith c i).length) ∧
    (∀ rd rs : Byte, decodeWith c ir a b = .add rd rs →
      (decodeWith c ir a b).length = 1 + operandCountField ir) ∧
    (ir ∉ c.opcodes → (decodeWith c ir a b).length = 1 ∧
      (c.strictUnknown = false → ∀ s : State, ∃ t : State,
        perform c (decodeWith c ir a b) s = .next t ∧ t.pc = s.pc + 1 ∧
        (s.run = .running → s.pc + 3 < c.memSize → stepWith c t = perform c
          (decodeWith c (s.mem.read (s.pc + 1)) (s.mem.read (s.pc + 2)) (s.mem.read (s.pc + 3))) t))) ∧
    (0xFF : Byte) ∉ c.opcodes) ∧
  operandCountField 0xFF = 3 ∧ operandCountField 0xA0 = 2 ∧ (0xA0 : Byte) ∉ Config.standard.opcodes

/-! ## Instructions -/

/-- R120: LDI's encoding, effect and exception. -/
def Obligations.LdiLoadsImmediate : Prop :=
  ∀ (rd imm : Byte) (s : State),
    (∀ c : Config, c.Legal →
      encodeWith c (.ldi rd imm) = [c.opLdi, rd, imm] ∧ decodeWith c c.opLdi rd imm = .instr (.ldi rd imm)) ∧
    (∀ h : rd.toNat < 8,
      exec (.ldi rd imm) s = .next { s with x := s.x.set rd.toNat imm h, pc := s.pc + 3 }) ∧
    (8 ≤ rd.toNat → ∃ t, exec (.ldi rd imm) s = .next t ∧ t.run = .faulted (.invalidRegister rd) ∧
      t.x = s.x ∧ t.pc = s.pc)

/-- R121: PRN's encoding (the byte fetched as operand_b is ignored), effect and exception. -/
def Obligations.PrnEmitsRegister : Prop :=
  ∀ (rs : Byte) (s : State),
    (∀ c : Config, c.Legal → ∀ b : Byte,
      encodeWith c (.prn rs) = [c.opPrn, rs] ∧ decodeWith c c.opPrn rs b = .instr (.prn rs)) ∧
    (∀ h : rs.toNat < 8,
      exec (.prn rs) s = .next { s with out := s.out ++ [s.x[rs.toNat]], pc := s.pc + 2 }) ∧
    (8 ≤ rs.toNat → ∃ t, exec (.prn rs) s = .next t ∧ t.run = .faulted (.invalidRegister rs) ∧
      t.out = s.out ∧ t.pc = s.pc)

/-- R112: MUL's encoding, effect (the low 8 bits of the product over the naturals) and exceptions, operand_a first. -/
def Obligations.MulWritesProductMod256 : Prop :=
  ∀ (rd rs : Byte) (s : State),
    (∀ c : Config, c.Legal →
      encodeWith c (.mul rd rs) = [c.opMul, rd, rs] ∧ decodeWith c c.opMul rd rs = .instr (.mul rd rs)) ∧
    (∀ (hd : rd.toNat < 8) (hs : rs.toNat < 8), ∃ p : Byte,
      p.toNat = (s.x[rd.toNat].toNat * s.x[rs.toNat].toNat) % 256 ∧
      exec (.mul rd rs) s = .next { s with x := s.x.set rd.toNat p hd, pc := s.pc + 3 }) ∧
    (8 ≤ rd.toNat → ∃ t, exec (.mul rd rs) s = .next t ∧ t.run = .faulted (.invalidRegister rd) ∧
      t.x = s.x ∧ t.pc = s.pc) ∧
    (rd.toNat < 8 → 8 ≤ rs.toNat → ∃ t, exec (.mul rd rs) s = .next t ∧ t.run = .faulted (.invalidRegister rs) ∧
      t.x = s.x ∧ t.pc = s.pc)

/-- R113: CMP's encoding, effect (an unsigned comparison of the registers' contents) and exceptions, operand_a first. -/
def Obligations.CmpSetsExactlyOneFlag : Prop :=
  ∀ (ra rb : Byte) (s : State),
    (∀ c : Config, c.Legal →
      encodeWith c (.cmp ra rb) = [c.opCmp, ra, rb] ∧ decodeWith c c.opCmp ra rb = .instr (.cmp ra rb)) ∧
    (∀ (ha : ra.toNat < 8) (hb : rb.toNat < 8), ∃ f : Flags,
      (f.equal = true ↔ s.x[ra.toNat] = s.x[rb.toNat]) ∧
      (f.greater = true ↔ s.x[rb.toNat].toNat < s.x[ra.toNat].toNat) ∧
      (f.less = true ↔ s.x[ra.toNat].toNat < s.x[rb.toNat].toNat) ∧
      f.count = 1 ∧
      exec (.cmp ra rb) s = .next { s with fl := f, pc := s.pc + 3 }) ∧
    (8 ≤ ra.toNat → ∃ t, exec (.cmp ra rb) s = .next t ∧ t.run = .faulted (.invalidRegister ra) ∧ t.fl = s.fl) ∧
    (ra.toNat < 8 → 8 ≤ rb.toNat → ∃ t, exec (.cmp ra rb) s = .next t ∧ t.run = .faulted (.invalidRegister rb) ∧
      t.fl = s.fl)

/-- R130: JMP's encoding, effect (for every target value: the jump never faults on its target) and exception. -/
def Obligations.JmpReplacesPc : Prop :=
  ∀ (rt : Byte) (s : State),
    (∀ c : Config, c.Legal → ∀ b : Byte,
      encodeWith c (.jmp rt) = [c.opJmp, rt] ∧ decodeWith c c.opJmp rt b = .instr (.jmp rt)) ∧
    (∀ h : rt.toNat < 8, exec (.jmp rt) s = .next { s with pc := s.x[rt.toNat].toNat }) ∧
    (8 ≤ rt.toNat → ∃ t, exec (.jmp rt) s = .next t ∧ t.run = .faulted (.invalidRegister rt) ∧ t.pc = s.pc)

/-- JEQ (43_control_flow.md section 2): taken exactly where FL.E = 1; the operand is validated only then
(D7, log 8). -/
def Obligations.JeqTakenIffEqual : Prop :=
  ∀ (rt : Byte) (s : State),
    (∀ c : Config, c.Legal → ∀ b : Byte,
      encodeWith c (.jeq rt) = [c.opJeq, rt] ∧ decodeWith c c.opJeq rt b = .instr (.jeq rt)) ∧
    (s.fl.equal = true →
      (∀ h : rt.toNat < 8, exec (.jeq rt) s = .next { s with pc := s.x[rt.toNat].toNat }) ∧
      (8 ≤ rt.toNat → exec (.jeq rt) s = .next (s.raise (.invalidRegister rt)))) ∧
    (s.fl.equal = false → exec (.jeq rt) s = .next { s with pc := s.pc + 2 })

/-- JNE (43_control_flow.md section 3): taken exactly where FL.E = 0, before any CMP too; the operand is validated only
then (D7, log 8). -/
def Obligations.JneTakenIffNotEqual : Prop :=
  ∀ (rt : Byte) (s : State),
    (∀ c : Config, c.Legal → ∀ b : Byte,
      encodeWith c (.jne rt) = [c.opJne, rt] ∧ decodeWith c c.opJne rt b = .instr (.jne rt)) ∧
    (s.fl.equal = false →
      (∀ h : rt.toNat < 8, exec (.jne rt) s = .next { s with pc := s.x[rt.toNat].toNat }) ∧
      (8 ≤ rt.toNat → exec (.jne rt) s = .next (s.raise (.invalidRegister rt)))) ∧
    (s.fl.equal = true → exec (.jne rt) s = .next { s with pc := s.pc + 2 })

/-- HLT (44_system.md section 1): Halted, pc one past it, nothing else; an HLT whose three-byte fetch leaves memory is
never executed (D4, log 4). -/
def Obligations.HltHalts : Prop :=
  (∀ c : Config, c.Legal → ∀ a b : Byte,
    encodeWith c .hlt = [c.opHlt] ∧ decodeWith c c.opHlt a b = .instr .hlt) ∧
  (∀ s : State, exec .hlt s = .next { s with run := .halted, pc := s.pc + 1 }) ∧
  (∀ (c : Config) (s : State), s.run = .running → s.mem.read s.pc = c.opHlt → s.pc < c.memSize →
    c.memSize ≤ s.pc + 2 → stepWith c s = .next (s.raise (.outOfBounds c.memSize)))

/-- The unknown-opcode step (44_system.md section 2), lenient and strict: the record's content is D9 (log 10), the strict
form the parameter of D11 (log 12). -/
def Obligations.UnknownOpcodeIsReportedAndSkipped : Prop :=
  ∀ (c : Config) (s : State), s.run = .running → s.pc + 2 < c.memSize → s.mem.read s.pc ∉ c.opcodes →
    (c.strictUnknown = false →
      stepWith c s = .next { s with diag := s.diag ++ [⟨s.mem.read s.pc, s.pc⟩], pc := s.pc + 1 }) ∧
    (c.strictUnknown = true → stepWith c s = .next (s.raise (.unknownOpcode (s.mem.read s.pc) s.pc)))

/-- ADD (41_alu.md section 2): the ALU function, and the instruction where the configuration dispatches it
(D3, log 3). -/
def Obligations.AddWritesSumMod256 : Prop :=
  ∀ (rd rs : Byte) (s : State),
    (∀ c : Config, c.Legal → c.addDispatch = true → decodeWith c c.opAdd rd rs = .add rd rs) ∧
    (∀ (hd : rd.toNat < 8) (hs : rs.toNat < 8), ∃ p : Byte,
      p.toNat = (s.x[rd.toNat].toNat + s.x[rs.toNat].toNat) % 256 ∧
      alu .add rd rs s.x s.fl = .ok (s.x.set rd.toNat p hd, s.fl) ∧
      execAdd rd rs s = .next { s with x := s.x.set rd.toNat p hd, pc := s.pc + 3 }) ∧
    (8 ≤ rd.toNat → execAdd rd rs s = .next (s.raise (.invalidRegister rd))) ∧
    (rd.toNat < 8 → 8 ≤ rs.toNat → execAdd rd rs s = .next (s.raise (.invalidRegister rs)))

/-- R110: the ALU reads the two registers its inputs name; ADD and MUL write the first and leave the flags, CMP writes the
flags and leaves the registers; an ALU instruction touches nothing else and advances the pc by 3. -/
def Obligations.AluTouchesOnlyRegistersOrFlags : Prop :=
  (∀ (op : AluOp) (a b : Byte) (x x' : RegFile) (fl fl' : Flags), alu op a b x fl = .ok (x', fl') →
    ∃ (ha : a.toNat < 8) (hb : b.toNat < 8),
      (op = .add → x' = x.set a.toNat (addMod256 x[a.toNat] x[b.toNat]) ha ∧ fl' = fl) ∧
      (op = .mul → x' = x.set a.toNat (mulMod256 x[a.toNat] x[b.toNat]) ha ∧ fl' = fl) ∧
      (op = .cmp → x' = x ∧ fl' = Flags.compare x[a.toNat] x[b.toNat])) ∧
  (∀ (op : AluOp) (a b : Byte) (s t : State), s.aluStep op a b = .ok t →
    alu op a b s.x s.fl = .ok (t.x, t.fl) ∧ t.pc = s.pc + 3 ∧
    t.mem = s.mem ∧ t.run = s.run ∧ t.out = s.out ∧ t.diag = s.diag)

/-- R26: the new pc of every row of the dispatch table, of ADD and of an unknown opcode. -/
def Obligations.PcAdvancePerInstruction : Prop :=
  ∀ s : State,
    (∃ t, exec .hlt s = .next t ∧ t.pc = s.pc + 1) ∧
    (∀ rd imm : Byte, rd.toNat < 8 → ∃ t, exec (.ldi rd imm) s = .next t ∧ t.pc = s.pc + 3) ∧
    (∀ rs : Byte, rs.toNat < 8 → ∃ t, exec (.prn rs) s = .next t ∧ t.pc = s.pc + 2) ∧
    (∀ rd rs : Byte, rd.toNat < 8 → rs.toNat < 8 → ∃ t, exec (.mul rd rs) s = .next t ∧ t.pc = s.pc + 3) ∧
    (∀ rd rs : Byte, rd.toNat < 8 → rs.toNat < 8 → ∃ t, execAdd rd rs s = .next t ∧ t.pc = s.pc + 3) ∧
    (∀ ra rb : Byte, ra.toNat < 8 → rb.toNat < 8 → ∃ t, exec (.cmp ra rb) s = .next t ∧ t.pc = s.pc + 3) ∧
    (∀ (rt : Byte) (_ : rt.toNat < 8), ∃ t, exec (.jmp rt) s = .next t ∧ t.pc = s.x[rt.toNat].toNat) ∧
    (∀ (rt : Byte) (_ : rt.toNat < 8), ∃ t, exec (.jeq rt) s = .next t ∧
      t.pc = if s.fl.equal then s.x[rt.toNat].toNat else s.pc + 2) ∧
    (∀ (rt : Byte) (_ : rt.toNat < 8), ∃ t, exec (.jne rt) s = .next t ∧
      t.pc = if s.fl.equal then s.pc + 2 else s.x[rt.toNat].toNat) ∧
    (∀ (c : Config) (ir a b : Byte), c.strictUnknown = false → ir ∉ c.opcodes →
      ∃ t, perform c (decodeWith c ir a b) s = .next t ∧ t.pc = s.pc + 1)

/-! ## Frames -/

/-- LDI, MUL and ADD leave every other register, the flags, the traces and every byte of memory as they were; where they
raise, the destination and the pc too. -/
def Obligations.RegisterWriteFrame : Prop :=
  ∀ (rd : Byte) (s t : State),
    ((∃ imm, exec (.ldi rd imm) s = .next t) ∨ (∃ rs, exec (.mul rd rs) s = .next t) ∨
      ∃ rs, execAdd rd rs s = .next t) →
    (∀ (j : Nat) (hj : j < 8), j ≠ rd.toNat → t.x[j] = s.x[j]) ∧
    t.fl = s.fl ∧ t.out = s.out ∧ t.diag = s.diag ∧ (∀ a, t.mem.read a = s.mem.read a) ∧
    (t.run = s.run ∨ ∃ e, t.run = .faulted e ∧ t.x = s.x ∧ t.pc = s.pc)

/-- CMP leaves every register, the traces and every byte of memory as they were; where it raises, the flags and the pc
too. -/
def Obligations.CompareFrame : Prop :=
  ∀ (ra rb : Byte) (s t : State), exec (.cmp ra rb) s = .next t →
    t.x = s.x ∧ t.out = s.out ∧ t.diag = s.diag ∧ (∀ a, t.mem.read a = s.mem.read a) ∧
    (t.run = s.run ∨ ∃ e, t.run = .faulted e ∧ t.fl = s.fl ∧ t.pc = s.pc)

/-- PRN leaves every register, the flags, DIAG, every byte of memory and the earlier outputs as they were; where it
raises, all of OUT and the pc too. -/
def Obligations.PrintFrame : Prop :=
  ∀ (rs : Byte) (s t : State), exec (.prn rs) s = .next t →
    t.x = s.x ∧ t.fl = s.fl ∧ t.diag = s.diag ∧ (∀ a, t.mem.read a = s.mem.read a) ∧
    (t.out = s.out ∨ ∃ v, t.out = s.out ++ [v]) ∧
    (t.run = s.run ∨ ∃ e, t.run = .faulted e ∧ t.out = s.out ∧ t.pc = s.pc)

/-- JMP, JEQ and JNE change only the pc, or, where they raise, only the run state. -/
def Obligations.JumpFrame : Prop :=
  ∀ (rt : Byte) (s t : State),
    (exec (.jmp rt) s = .next t ∨ exec (.jeq rt) s = .next t ∨ exec (.jne rt) s = .next t) →
    t.x = s.x ∧ t.fl = s.fl ∧ t.out = s.out ∧ t.diag = s.diag ∧ (∀ a, t.mem.read a = s.mem.read a) ∧
    (t.run = s.run ∨ ∃ e, t.run = .faulted e ∧ t.pc = s.pc)

/-- HLT and the unknown-opcode step leave every register, the flags, OUT and every byte of memory as they were; HLT
leaves DIAG too, and the unknown-opcode step its earlier records. -/
def Obligations.HaltAndUnknownFrame : Prop :=
  ∀ (c : Config) (b : Byte) (s t : State), (exec .hlt s = .next t ∨ execUnknown c b s = .next t) →
    t.x = s.x ∧ t.fl = s.fl ∧ t.out = s.out ∧ s.diag <+: t.diag ∧ (∀ a, t.mem.read a = s.mem.read a) ∧
    (exec .hlt s = .next t → t.diag = s.diag)

/-! ## The step -/

/-- R90: a step is defined exactly in Running, where one next state follows; in Halted or Faulted the machine has no step
and its state never changes again. -/
def Obligations.StepDefinedExactlyInRunning : Prop :=
  ∀ (c : Config) (s : State),
    (s.run = .running ↔ ∃ t, stepWith c s = .next t) ∧
    (s.run ≠ .running → ∀ k, runFor c k s = s)

/-- A Running machine whose three fetch addresses exist performs what the three bytes at the pc decode to; nothing is
added around the instruction (40_execution_cycle.md section 1). -/
def Obligations.StepRunsDecodedInstruction : Prop :=
  (∀ (c : Config) (s : State), s.run = .running → s.pc + 2 < c.memSize →
    stepWith c s =
      perform c (decodeWith c (s.mem.read s.pc) (s.mem.read (s.pc + 1)) (s.mem.read (s.pc + 2))) s) ∧
  (∀ (i : Instr) (s : State), s.run = .running → s.pc + 2 < Config.standard.memSize →
    decode (s.mem.read s.pc) (s.mem.read (s.pc + 1)) (s.mem.read (s.pc + 2)) = .instr i → step s = exec i s)

/-- A step whose fetch leaves memory raises OutOfBounds with the first address that does not exist, max(pc, N), whatever
the opcode is (D4, D18, log 4). -/
def Obligations.FetchBeyondMemoryRaises : Prop :=
  ∀ (c : Config) (s : State), s.run = .running → c.memSize ≤ s.pc + 2 →
    stepWith c s = .next (s.raise (.outOfBounds (max s.pc c.memSize)))

/-- A step that ends Faulted has had no other effect: all or nothing (D6, log 6). -/
def Obligations.FaultingStepHasNoOtherEffect : Prop :=
  ∀ (c : Config) (s t : State) (e : CoreError), stepWith c s = .next t → t.run = .faulted e →
    t = { s with run := .faulted e }

/-- Which error a step raises: OutOfBounds(max(pc, N)) from the fetch, then UnknownOpcode(ir, pc) in the strict form, then
InvalidRegister of operand_a, then of operand_b where operand_a is valid (60_exceptions.md section 1; the order is D18,
log 14). -/
def Obligations.EveryFaultHasItsCause : Prop :=
  ∀ (c : Config) (s t : State) (e : CoreError), stepWith c s = .next t → t.run = .faulted e →
    (c.memSize ≤ s.pc + 2 ∧ e = .outOfBounds (max s.pc c.memSize)) ∨
    (s.pc + 2 < c.memSize ∧ c.strictUnknown = true ∧ s.mem.read s.pc ∉ c.opcodes ∧
      e = .unknownOpcode (s.mem.read s.pc) s.pc) ∨
    (s.pc + 2 < c.memSize ∧ s.mem.read s.pc ∈ c.opcodes ∧ 8 ≤ (s.mem.read (s.pc + 1)).toNat ∧
      e = .invalidRegister (s.mem.read (s.pc + 1))) ∨
    (s.pc + 2 < c.memSize ∧ s.mem.read s.pc ∈ c.opcodes ∧ (s.mem.read (s.pc + 1)).toNat < 8 ∧
      8 ≤ (s.mem.read (s.pc + 2)).toNat ∧ e = .invalidRegister (s.mem.read (s.pc + 2)))

/-- R114: no state and no bytes in memory raise UnsupportedAluOp, in one step or in a run. -/
def Obligations.UnsupportedAluOpIsUnreachable : Prop :=
  (∀ (op : AluOp) (a b : Byte) (x : RegFile) (fl : Flags), alu op a b x fl ≠ .error .unsupportedAluOp) ∧
  (∀ (c : Config) (s t : State), stepWith c s = .next t → t.run ≠ .faulted .unsupportedAluOp) ∧
  (∀ (c : Config) (k : Nat) (s : State), s.run ≠ .faulted .unsupportedAluOp →
    (runFor c k s).run ≠ .faulted .unsupportedAluOp)

/-- HLT is the only way to Halted, and leaves the pc one past itself (40_execution_cycle.md section 3). -/
def Obligations.OnlyHltHalts : Prop :=
  ∀ (c : Config) (s t : State), stepWith c s = .next t → t.run = .halted →
    s.mem.read s.pc = c.opHlt ∧ t.pc = s.pc + 1

/-- An instruction whose register operands all name registers never raises: it completes from every state
(60_exceptions.md section 1, D7). -/
def Obligations.WellFormedInstructionNeverRaises : Prop :=
  ∀ (i : Instr) (s : State), i.wellFormed = true → s.run = .running →
    ∃ t, exec i s = .next t ∧ (t.run = .running ∨ t.run = .halted)

/-- A taken jump (JMP, JEQ where FL.E = 1, JNE where FL.E = 0) does not check its target; a target whose three bytes leave
memory faults at the next step (43_control_flow.md section 4, D4). -/
def Obligations.BadTargetFaultsAtNextStep : Prop :=
  ∀ (c : Config) (i : Instr) (rt : Byte) (s : State) (h : rt.toNat < 8), s.run = .running →
    (i = .jmp rt ∨ (i = .jeq rt ∧ s.fl.equal = true) ∨ (i = .jne rt ∧ s.fl.equal = false)) →
    c.memSize ≤ s.x[rt.toNat].toNat + 2 →
    ∃ t, exec i s = .next t ∧ t.run = .running ∧
      stepWith c t = .next (t.raise (.outOfBounds (max s.x[rt.toNat].toNat c.memSize)))

/-! ## Rules about the whole machine -/

/-- Memory is constant for the whole of a run (10_state.md section 6). -/
def Obligations.MemoryConstantDuringRun : Prop :=
  ∀ (c : Config) (k : Nat) (s : State), (runFor c k s).mem = s.mem

/-- Only CMP writes the flags (10_state.md section 4). -/
def Obligations.OnlyCmpWritesFlags : Prop :=
  ∀ (c : Config) (s t : State), stepWith c s = .next t → s.mem.read s.pc ≠ c.opCmp → t.fl = s.fl

/-- Once exactly one flag is set, as a completed CMP leaves it, exactly one is set in every later state of the run
(10_state.md section 4). -/
def Obligations.OneFlagStaysSetAfterCompare : Prop :=
  ∀ (c : Config) (k : Nat) (s : State), s.fl.count = 1 → (runFor c k s).fl.count = 1

/-- OUT and DIAG are append-only: what a run has printed and reported stays (10_state.md section 7). -/
def Obligations.TracesOnlyGrow : Prop :=
  ∀ (c : Config) (k : Nat) (s : State), s.out <+: (runFor c k s).out ∧ s.diag <+: (runFor c k s).diag

/-- FL.G, FL.L, OUT and DIAG are never read: two states that agree on everything else still do after any number of steps,
and both print and report the same from then on (10_state.md sections 4 and 7). -/
def Obligations.UnreadStateNeverMatters : Prop :=
  ∀ (c : Config) (k : Nat) (s t : State), AgreeOnWhatIsRead s t →
    AgreeOnWhatIsRead (runFor c k s) (runFor c k t) ∧
    ∃ (o : List Byte) (d : List DiagRecord),
      (runFor c k s).out = s.out ++ o ∧ (runFor c k t).out = t.out ++ o ∧
      (runFor c k s).diag = s.diag ++ d ∧ (runFor c k t).diag = t.diag ++ d

/-- A step reads no cell but the three at pc, pc + 1 and pc + 2, and writes none (20_memory.md section 1). -/
def Obligations.StepReadsOnlyThreeCells : Prop :=
  ∀ (c : Config) (s t : State) (m : Memory),
    (∀ k, k ≤ 2 → m.read (s.pc + k) = s.mem.read (s.pc + k)) → stepWith c s = .next t →
    stepWith c { s with mem := m } = .next { t with mem := m } ∧ t.mem = s.mem

/-- Which registers an instruction reads and writes (10_state.md section 2): with any values in the registers it does not
read, it does the same to everything but registers, gives the registers it writes the same values, and leaves the others
alone. -/
def Obligations.InstructionUsesOnlyItsRegisters : Prop :=
  ∀ (i : Instr) (s t : State) (y : RegFile), s.run = .running →
    (∀ r ∈ regsRead s.fl i, ∀ h : r.toNat < 8, y[r.toNat] = s.x[r.toNat]) →
    exec i s = .next t →
    ∃ t' : State, exec i { s with x := y } = .next t' ∧ { t' with x := t.x } = t ∧
      (∀ (j : Nat) (hj : j < 8), (∀ r ∈ regsWritten i, r.toNat ≠ j) → t.x[j] = s.x[j] ∧ t'.x[j] = y[j]) ∧
      (∀ (r : Byte) (h : r.toNat < 8), r ∈ regsWritten i → (∀ e, t.run ≠ .faulted e) → t'.x[r.toNat] = t.x[r.toNat])

/-- Every step keeps the invariant `Inv`: memory canonical and inside [0, N), FL one of its four values, the pc at most
max(N, 255), every record of DIAG true of memory, Halted one past an HLT, and Faulted(e) what the step of the same state
in Running answers. The canonical form is the model's own choice (log 15); a record's content is D9 (log 10); that a raise
changes only the run state is D6 (log 6). -/
def Obligations.StepKeepsInvariant : Prop :=
  (∀ (c : Config) (s t : State), c.Legal → Inv c s → stepWith c s = .next t → Inv c t) ∧
  (∀ s t : State, Inv Config.standard s → step s = .next t → Inv Config.standard t)

/-- The reset state meets the invariant, for every configuration. The invariant's canonical form of memory is the model's
own choice (log 15). -/
def Obligations.ResetMeetsInvariant : Prop :=
  ∀ c : Config, Inv c State.reset

/-- Every launch state meets the invariant. The invariant's canonical form of memory is the model's own choice (log 15). -/
def Obligations.LaunchStateMeetsInvariant : Prop :=
  ∀ (c : Config) (image : List Byte) (s : State), load c image = .ok s → Inv c s

/-- A machine that only meets bytes 0x00 from its pc to the top of memory, 0x00 being outside the opcode map, skips them
one by one and faults with OutOfBounds(N) at N - 2 (40_execution_cycle.md section 3; derived there from D4, log 4). Each skip
reports one record on DIAG (44_system.md section 2), whose content is D9 (log 10). -/
def Obligations.RunOffTheEndFaults : Prop :=
  ∀ (c : Config) (s : State), c.strictUnknown = false → (0x00 : Byte) ∉ c.opcodes → s.run = .running →
    s.pc + 2 ≤ c.memSize → (∀ a, s.pc ≤ a → a < c.memSize → s.mem.read a = 0x00) →
    runFor c (c.memSize - 2 - s.pc + 1) s =
      { s with
        pc := c.memSize - 2
        run := .faulted (.outOfBounds c.memSize)
        diag := s.diag ++ (List.range' s.pc (c.memSize - 2 - s.pc)).map fun a => ⟨0x00, a⟩ }

/-- A jump to itself changes nothing for ever: a run need not end (40_execution_cycle.md section 3, 43_control_flow.md
section 1). -/
def Obligations.SelfJumpRunsForever : Prop :=
  ∀ (c : Config) (s : State) (rt : Byte) (h : rt.toNat < 8), s.run = .running → s.pc + 2 < c.memSize →
    decodeWith c (s.mem.read s.pc) (s.mem.read (s.pc + 1)) (s.mem.read (s.pc + 2)) = .instr (.jmp rt) →
    s.x[rt.toNat].toNat = s.pc → ∀ k, runFor c k s = s

/-! ## Reset, memory and the load -/

/-- The state at reset (10_state.md section 9). -/
def Obligations.ResetIsAllZeroAndRunning : Prop :=
  (∀ a, State.reset.mem.read a = 0x00) ∧ (∀ (j : Nat) (hj : j < 8), State.reset.x[j] = 0x00) ∧
  State.reset.fl = ⟨false, false, false⟩ ∧ State.reset.pc = 0 ∧ State.reset.run = .running ∧
  State.reset.out = [] ∧ State.reset.diag = []

/-- The contracts of MemRead and MemWrite (20_memory.md section 1): the byte read is the byte last written, one cell
changes, and an address outside [0, N) is OutOfBounds, never a wrap. The premise is the model's canonical form of
memory (log 15). -/
def Obligations.MemoryPortContract : Prop :=
  ∀ (c : Config) (m : Memory) (a : Nat) (v : Byte), m.wf →
    (a < c.memSize → memRead c m a = .ok (m.read a) ∧
      ∃ m', memWrite c m a v = .ok m' ∧ m'.read a = v ∧ ∀ b, b ≠ a → m'.read b = m.read b) ∧
    (c.memSize ≤ a → memRead c m a = .error (.outOfBounds a) ∧ memWrite c m a v = .error (.outOfBounds a))

/-- Two memories in canonical form that read alike are equal: the model's memory is one list for one contents
(log 15). -/
def Obligations.CanonicalMemoryIsUnique : Prop :=
  ∀ m n : Memory, m.wf → n.wf → (∀ a, m.read a = n.read a) → m = n

/-- R181: the launch state of an image. -/
def Obligations.LoadPlacesImage : Prop :=
  ∀ (c : Config) (image : List Byte), image.length ≤ c.memSize →
    ∃ s, load c image = .ok s ∧
      (∀ (i : Nat) (h : i < image.length), memRead c s.mem i = .ok image[i]) ∧
      (∀ j, image.length ≤ j → j < c.memSize → memRead c s.mem j = .ok 0x00) ∧
      (∀ (j : Nat) (hj : j < 8), s.x[j] = 0x00) ∧ s.fl = ⟨false, false, false⟩ ∧ s.pc = 0 ∧ s.run = .running ∧
      s.out = [] ∧ s.diag = []

/-- An image longer than N gives OutOfBounds(N) and no launch state (70_reset_and_hazards.md section 2, D17, log 16). -/
def Obligations.OverlongImageIsRefused : Prop :=
  ∀ (c : Config) (image : List Byte), c.memSize < image.length → load c image = .error (.outOfBounds c.memSize)

/-- Placing an instruction's word where the machine fetches makes the next step run it (the model's own `withFetchWord`,
log 16). -/
def Obligations.FetchWordRunsItsInstruction : Prop :=
  ∀ (s : State) (nbits w : Nat) (i : Instr), s.mem.wf → s.run = .running → s.pc + 2 < Config.standard.memSize →
    decodeTableWord nbits w = some i → step (s.withFetchWord nbits w) = exec i (s.withFetchWord nbits w)

/-! ## Arithmetic, output text, image text -/

/-- The laws of 41_alu.md section 6: ADD and MUL commute in the values, CMP with its values exchanged exchanges greater
and less, and FL.E holds exactly on equal values. -/
def Obligations.ArithmeticLaws : Prop :=
  ∀ a b : Byte,
    addMod256 a b = addMod256 b a ∧ mulMod256 a b = mulMod256 b a ∧
    (addMod256 a b).toNat = (a.toNat + b.toNat) % 256 ∧ (mulMod256 a b).toNat = (a.toNat * b.toNat) % 256 ∧
    (Flags.compare b a).equal = (Flags.compare a b).equal ∧
    (Flags.compare b a).greater = (Flags.compare a b).less ∧
    (Flags.compare b a).less = (Flags.compare a b).greater ∧
    ((Flags.compare a b).equal = true ↔ a = b) ∧ (Flags.compare a b).count = 1

/-- The text of OUT (10_state.md section 7; its form is D10, log 11): one line for each value in order, the value's decimal
numeral without leading zeros and a line feed; and different traces have different texts. -/
def Obligations.OutputTextDeterminesOutput : Prop :=
  (∀ v : Byte, (decimal v).foldl (fun n ch => 10 * n + (ch.toNat - 48)) 0 = v.toNat ∧
    (1 < (decimal v).length → (decimal v).head? ≠ some '0') ∧ ∀ ch ∈ decimal v, ch.isDigit = true) ∧
  renderOut [] = [] ∧
  (∀ (v : Byte) (o : List Byte), renderOut (v :: o) = decimal v ++ '\n' :: renderOut o) ∧
  (∀ o o' : List Byte, renderOut o = renderOut o' → o = o')

/-- A text of lines of eight base-2 digits, each followed by a space and a comment, is the image of those bytes
(70_reset_and_hazards.md section 2, its example's form; log 18). -/
def Obligations.ImageTextOfBinaryLines : Prop :=
  ∀ lines : List (Byte × List Char), (∀ p ∈ lines, '\n' ∉ p.2) →
    readText (lines.flatMap fun p => binaryLine p.1 ++ ' ' :: '#' :: p.2 ++ ['\n']) = .image (lines.map Prod.fst)
end

