-- ==== Sys2Proof/Laws/Decode.lean ====
section
/-! SUPPORT. What the decoder can answer, said once. -/

namespace Sys2Proof

/-- Every answer of the decoder, with the opcode byte that selects it. -/
theorem decodeWith_cases (c : Config) (ir a b : Byte) :
    (ir = c.opHlt ∧ decodeWith c ir a b = .instr .hlt) ∨
    (ir = c.opLdi ∧ decodeWith c ir a b = .instr (.ldi a b)) ∨
    (ir = c.opPrn ∧ decodeWith c ir a b = .instr (.prn a)) ∨
    (ir = c.opMul ∧ decodeWith c ir a b = .instr (.mul a b)) ∨
    (ir = c.opCmp ∧ decodeWith c ir a b = .instr (.cmp a b)) ∨
    (ir = c.opJmp ∧ decodeWith c ir a b = .instr (.jmp a)) ∨
    (ir = c.opJeq ∧ decodeWith c ir a b = .instr (.jeq a)) ∨
    (ir = c.opJne ∧ decodeWith c ir a b = .instr (.jne a)) ∨
    (c.addDispatch = true ∧ ir = c.opAdd ∧ decodeWith c ir a b = .add a b) ∨
    (ir ∉ c.opcodes ∧ decodeWith c ir a b = .unknown ir) := by
  by_cases h1 : ir = c.opHlt
  · exact .inl ⟨h1, by simp [decodeWith, h1]⟩
  by_cases h2 : ir = c.opLdi
  · exact .inr (.inl ⟨h2, by simp only [decodeWith, h1, if_true, if_false, ← h2]⟩)
  by_cases h3 : ir = c.opPrn
  · exact .inr (.inr (.inl ⟨h3, by simp only [decodeWith, h1, h2, if_true, if_false, ← h3]⟩))
  by_cases h4 : ir = c.opMul
  · exact .inr (.inr (.inr (.inl ⟨h4, by simp only [decodeWith, h1, h2, h3, if_true, if_false, ← h4]⟩)))
  by_cases h5 : ir = c.opCmp
  · exact .inr (.inr (.inr (.inr (.inl ⟨h5, by simp only [decodeWith, h1, h2, h3, h4, if_true, if_false, ← h5]⟩))))
  refine .inr (.inr (.inr (.inr (.inr ?_))))
  by_cases h6 : ir = c.opJmp
  · exact .inl ⟨h6, by simp only [decodeWith, h1, h2, h3, h4, h5, if_true, if_false, ← h6]⟩
  by_cases h7 : ir = c.opJeq
  · exact .inr (.inl ⟨h7, by simp only [decodeWith, h1, h2, h3, h4, h5, h6, if_true, if_false, ← h7]⟩)
  by_cases h8 : ir = c.opJne
  · exact .inr (.inr (.inl ⟨h8, by simp only [decodeWith, h1, h2, h3, h4, h5, h6, h7, if_true, if_false, ← h8]⟩))
  refine .inr (.inr (.inr ?_))
  by_cases h9 : c.addDispatch = true ∧ ir = c.opAdd
  · exact .inl ⟨h9.1, h9.2, by simp only [decodeWith, h1, h2, h3, h4, h5, h6, h7, h8, if_false, if_pos h9]⟩
  · refine .inr ⟨?_, by simp only [decodeWith, h1, h2, h3, h4, h5, h6, h7, h8, h9, if_false]⟩
    cases hd : c.addDispatch <;> simp_all [Config.opcodes, Config.opcodeRows]

end Sys2Proof
end

