-- ==== Sys2Proof/Laws/Ops.lean ====
section
/-! SUPPORT. What each shared operation can do, said once: its value where it succeeds, its error where it raises. -/

namespace Sys2Proof.Machine

/-! ## Registers -/

@[simp] theorem readAt_of_lt {x : RegFile} {i : Byte} (h : i.toNat < 8) : x.readAt i = .ok x[i.toNat] := by
  simp [RegFile.readAt, h]

@[simp] theorem readAt_of_le {x : RegFile} {i : Byte} (h : 8 ≤ i.toNat) :
    x.readAt i = .error (.invalidRegister i) := by
  simp [RegFile.readAt, Nat.not_lt.2 h]

@[simp] theorem writeAt_of_lt {x : RegFile} {i : Byte} (v : Byte) (h : i.toNat < 8) :
    x.writeAt i v = .ok (x.set i.toNat v h) := by
  simp [RegFile.writeAt, h]

@[simp] theorem writeAt_of_le {x : RegFile} {i : Byte} (v : Byte) (h : 8 ≤ i.toNat) :
    x.writeAt i v = .error (.invalidRegister i) := by
  simp [RegFile.writeAt, Nat.not_lt.2 h]

@[simp] theorem readReg_of_lt {s : State} {i : Byte} (h : i.toNat < 8) : s.readReg i = .ok s.x[i.toNat] :=
  readAt_of_lt h

@[simp] theorem readReg_of_le {s : State} {i : Byte} (h : 8 ≤ i.toNat) :
    s.readReg i = .error (.invalidRegister i) :=
  readAt_of_le h

@[simp] theorem writeReg_of_lt {s : State} {i : Byte} (v : Byte) (h : i.toNat < 8) :
    s.writeReg i v = .ok { s with x := s.x.set i.toNat v h } := by
  simp [State.writeReg, h, bind, Except.bind, pure, Except.pure]

@[simp] theorem writeReg_of_le {s : State} {i : Byte} (v : Byte) (h : 8 ≤ i.toNat) :
    s.writeReg i v = .error (.invalidRegister i) := by
  simp [State.writeReg, h, bind, Except.bind]

/-! ## The end of a step -/

@[simp] theorem commit_ok (s t : State) : s.commit (.ok t) = .next t := rfl

@[simp] theorem commit_error (s : State) (e : CoreError) : s.commit (.error e) = .next (s.raise e) := rfl

/-- A step that commits always has a next state. -/
theorem commit_eq_next (s : State) (r : Except CoreError State) :
    (∃ t, r = .ok t ∧ s.commit r = .next t) ∨ ∃ e, r = .error e ∧ s.commit r = .next (s.raise e) := by
  cases r with
  | ok t => exact .inl ⟨t, rfl, rfl⟩
  | error e => exact .inr ⟨e, rfl, rfl⟩

/-! ## The ALU -/

/-- The ALU's effect on two valid indices. -/
theorem alu_of_lt (op : AluOp) {a b : Byte} (x : RegFile) (fl : Flags) (ha : a.toNat < 8) (hb : b.toNat < 8) :
    alu op a b x fl = .ok (match op with
      | .add => (x.set a.toNat (addMod256 x[a.toNat] x[b.toNat]) ha, fl)
      | .mul => (x.set a.toNat (mulMod256 x[a.toNat] x[b.toNat]) ha, fl)
      | .cmp => (x, Flags.compare x[a.toNat] x[b.toNat])) := by
  cases op <;> simp [alu, ha, hb, bind, Except.bind, pure, Except.pure]

/-- The ALU checks operand_a first. -/
theorem alu_of_le_left (op : AluOp) {a : Byte} (b : Byte) (x : RegFile) (fl : Flags) (ha : 8 ≤ a.toNat) :
    alu op a b x fl = .error (.invalidRegister a) := by
  simp [alu, ha, bind, Except.bind]

/-- The ALU checks operand_b second. -/
theorem alu_of_le_right (op : AluOp) {a b : Byte} (x : RegFile) (fl : Flags) (ha : a.toNat < 8) (hb : 8 ≤ b.toNat) :
    alu op a b x fl = .error (.invalidRegister b) := by
  simp [alu, ha, hb, bind, Except.bind]

/-- Everything an ALU instruction can do: a new register file and flags with `pc + 3`, or the error of the first bad
operand. -/
theorem aluStep_cases (s : State) (op : AluOp) (a b : Byte) :
    (∃ (ha : a.toNat < 8) (hb : b.toNat < 8), s.aluStep op a b = .ok (match op with
      | .add => { s with x := s.x.set a.toNat (addMod256 s.x[a.toNat] s.x[b.toNat]) ha, pc := s.pc + 3 }
      | .mul => { s with x := s.x.set a.toNat (mulMod256 s.x[a.toNat] s.x[b.toNat]) ha, pc := s.pc + 3 }
      | .cmp => { s with fl := Flags.compare s.x[a.toNat] s.x[b.toNat], pc := s.pc + 3 })) ∨
    (8 ≤ a.toNat ∧ s.aluStep op a b = .error (.invalidRegister a)) ∨
    (a.toNat < 8 ∧ 8 ≤ b.toNat ∧ s.aluStep op a b = .error (.invalidRegister b)) := by
  rcases Nat.lt_or_ge a.toNat 8 with ha | ha
  · rcases Nat.lt_or_ge b.toNat 8 with hb | hb
    · refine .inl ⟨ha, hb, ?_⟩
      simp only [State.aluStep, alu_of_lt op s.x s.fl ha hb, bind, Except.bind, pure, Except.pure]
      cases op <;> rfl
    · refine .inr (.inr ⟨ha, hb, ?_⟩)
      simp [State.aluStep, alu_of_le_right op s.x s.fl ha hb, bind, Except.bind]
  · refine .inr (.inl ⟨ha, ?_⟩)
    simp [State.aluStep, alu_of_le_left op b s.x s.fl ha, bind, Except.bind]

/-! ## Jumps -/

/-- A taken jump replaces `pc`, or raises at the register access. -/
theorem takeJump_cases (s : State) (rt : Byte) :
    (∃ h : rt.toNat < 8, s.takeJump rt = .ok (s.jumpTo s.x[rt.toNat])) ∨
    (8 ≤ rt.toNat ∧ s.takeJump rt = .error (.invalidRegister rt)) := by
  rcases Nat.lt_or_ge rt.toNat 8 with h | h
  · exact .inl ⟨h, by simp [State.takeJump, h, bind, Except.bind, pure, Except.pure]⟩
  · exact .inr ⟨h, by simp [State.takeJump, h, bind, Except.bind]⟩

@[simp] theorem jumpIf_true (s : State) (rt : Byte) : s.jumpIf true rt = s.takeJump rt := rfl

@[simp] theorem jumpIf_false (s : State) (rt : Byte) : s.jumpIf false rt = .ok (s.advance 2) := rfl

/-! ## Fetch -/

/-- A fetch whose three addresses exist. -/
theorem fetch_of_lt {c : Config} {s : State} (h : s.pc + 2 < c.memSize) :
    fetch c s = .ok { ir := s.mem.read s.pc, operandA := s.mem.read (s.pc + 1), operandB := s.mem.read (s.pc + 2) } := by
  have h0 : s.pc < c.memSize := by omega
  have h1 : s.pc + 1 < c.memSize := by omega
  simp [fetch, memRead, h, h0, h1, bind, Except.bind, pure, Except.pure]

/-- A fetch with an address that does not exist gives the first such address. -/
theorem fetch_of_le {c : Config} {s : State} (h : c.memSize ≤ s.pc + 2) :
    fetch c s = .error (.outOfBounds (max s.pc c.memSize)) := by
  rcases Nat.lt_or_ge s.pc c.memSize with h0 | h0
  · rcases Nat.lt_or_ge (s.pc + 1) c.memSize with h1 | h1
    · have h2 : ¬ s.pc + 2 < c.memSize := by omega
      have hm : max s.pc c.memSize = s.pc + 2 := by omega
      simp [fetch, memRead, h0, h1, h2, hm, bind, Except.bind]
    · have h1' : ¬ s.pc + 1 < c.memSize := by omega
      have hm : max s.pc c.memSize = s.pc + 1 := by omega
      simp [fetch, memRead, h0, h1', hm, bind, Except.bind]
  · have h0' : ¬ s.pc < c.memSize := by omega
    have hm : max s.pc c.memSize = s.pc := by omega
    simp [fetch, memRead, h0', hm, bind, Except.bind]

end Sys2Proof.Machine
end

