-- ==== Sys2Proof/Laws/State.lean ====
section
/-! SUPPORT. One lemma per field per update of the state, so that no proof unfolds a record update. -/

namespace Sys2Proof.Machine

variable (s : State)

@[simp] theorem State.advance_mem (k : Nat) : (s.advance k).mem = s.mem := rfl
@[simp] theorem State.advance_x (k : Nat) : (s.advance k).x = s.x := rfl
@[simp] theorem State.advance_fl (k : Nat) : (s.advance k).fl = s.fl := rfl
@[simp] theorem State.advance_pc (k : Nat) : (s.advance k).pc = s.pc + k := rfl
@[simp] theorem State.advance_run (k : Nat) : (s.advance k).run = s.run := rfl
@[simp] theorem State.advance_out (k : Nat) : (s.advance k).out = s.out := rfl
@[simp] theorem State.advance_diag (k : Nat) : (s.advance k).diag = s.diag := rfl

@[simp] theorem State.jumpTo_mem (t : Byte) : (s.jumpTo t).mem = s.mem := rfl
@[simp] theorem State.jumpTo_x (t : Byte) : (s.jumpTo t).x = s.x := rfl
@[simp] theorem State.jumpTo_fl (t : Byte) : (s.jumpTo t).fl = s.fl := rfl
@[simp] theorem State.jumpTo_pc (t : Byte) : (s.jumpTo t).pc = t.toNat := rfl
@[simp] theorem State.jumpTo_run (t : Byte) : (s.jumpTo t).run = s.run := rfl
@[simp] theorem State.jumpTo_out (t : Byte) : (s.jumpTo t).out = s.out := rfl
@[simp] theorem State.jumpTo_diag (t : Byte) : (s.jumpTo t).diag = s.diag := rfl

@[simp] theorem State.emit_mem (v : Byte) : (s.emit v).mem = s.mem := rfl
@[simp] theorem State.emit_x (v : Byte) : (s.emit v).x = s.x := rfl
@[simp] theorem State.emit_fl (v : Byte) : (s.emit v).fl = s.fl := rfl
@[simp] theorem State.emit_pc (v : Byte) : (s.emit v).pc = s.pc := rfl
@[simp] theorem State.emit_run (v : Byte) : (s.emit v).run = s.run := rfl
@[simp] theorem State.emit_out (v : Byte) : (s.emit v).out = s.out ++ [v] := rfl
@[simp] theorem State.emit_diag (v : Byte) : (s.emit v).diag = s.diag := rfl

@[simp] theorem State.report_mem (opcode : Byte) (addr : Nat) : (s.report opcode addr).mem = s.mem := rfl
@[simp] theorem State.report_x (opcode : Byte) (addr : Nat) : (s.report opcode addr).x = s.x := rfl
@[simp] theorem State.report_fl (opcode : Byte) (addr : Nat) : (s.report opcode addr).fl = s.fl := rfl
@[simp] theorem State.report_pc (opcode : Byte) (addr : Nat) : (s.report opcode addr).pc = s.pc := rfl
@[simp] theorem State.report_run (opcode : Byte) (addr : Nat) : (s.report opcode addr).run = s.run := rfl
@[simp] theorem State.report_out (opcode : Byte) (addr : Nat) : (s.report opcode addr).out = s.out := rfl
@[simp] theorem State.report_diag (opcode : Byte) (addr : Nat) : (s.report opcode addr).diag = s.diag ++ [DiagRecord.mk opcode addr] := rfl

@[simp] theorem State.raise_mem (e : CoreError) : (s.raise e).mem = s.mem := rfl
@[simp] theorem State.raise_x (e : CoreError) : (s.raise e).x = s.x := rfl
@[simp] theorem State.raise_fl (e : CoreError) : (s.raise e).fl = s.fl := rfl
@[simp] theorem State.raise_pc (e : CoreError) : (s.raise e).pc = s.pc := rfl
@[simp] theorem State.raise_run (e : CoreError) : (s.raise e).run = RunState.faulted e := rfl
@[simp] theorem State.raise_out (e : CoreError) : (s.raise e).out = s.out := rfl
@[simp] theorem State.raise_diag (e : CoreError) : (s.raise e).diag = s.diag := rfl

end Sys2Proof.Machine
end

