-- ==== Sys2Proof/Laws/Engine.lean ====
section
/-! SUPPORT. What a step can do, said once, for the proofs about steps and runs. -/

namespace Sys2Proof.Machine

@[simp] theorem perform_instr (c : Config) (i : Instr) (s : State) : perform c (.instr i) s = exec i s := rfl

@[simp] theorem perform_add (c : Config) (rd rs : Byte) (s : State) :
    perform c (.add rd rs) s = execAdd rd rs s := rfl

@[simp] theorem perform_unknown (c : Config) (b : Byte) (s : State) :
    perform c (.unknown b) s = execUnknown c b s := rfl

/-- A step of a Running machine is its cycle. -/
theorem stepWith_running {c : Config} {s : State} (h : s.run = .running) : stepWith c s = cycle c s := by
  simp [stepWith, h]

/-- A Halted machine has no step. -/
theorem stepWith_halted {c : Config} {s : State} (h : s.run = .halted) : stepWith c s = .fault .halted := by
  simp [stepWith, h]

/-- A Faulted machine has no step. -/
theorem stepWith_faulted {c : Config} {s : State} {e : CoreError} (h : s.run = .faulted e) :
    stepWith c s = .fault (.faulted e) := by
  simp [stepWith, h]

@[simp] theorem runFor_zero (c : Config) (s : State) : runFor c 0 s = s := rfl

/-- A run goes on from the next state. -/
theorem runFor_succ_of_next {c : Config} {s t : State} (k : Nat) (h : stepWith c s = .next t) :
    runFor c (k + 1) s = runFor c k t := by
  simp [runFor, h]

/-- What an instruction does to the fields no instruction writes, whatever its operands. -/
theorem exec_mem_diag {i : Instr} {s t : State} (h : exec i s = .next t) : t.mem = s.mem ∧ t.diag = s.diag := by
  cases i with
  | hlt => cases h; exact ⟨rfl, rfl⟩
  | ldi rd imm =>
    rcases Nat.lt_or_ge rd.toNat 8 with hr | hr <;>
      simp [exec, execLdi, hr, bind, Except.bind, pure, Except.pure] at h <;> subst h <;> exact ⟨rfl, rfl⟩
  | prn rs =>
    rcases Nat.lt_or_ge rs.toNat 8 with hr | hr <;>
      simp [exec, execPrn, hr, bind, Except.bind, pure, Except.pure] at h <;> subst h <;> exact ⟨rfl, rfl⟩
  | mul rd rs =>
    rcases aluStep_cases s .mul rd rs with ⟨_, _, he⟩ | ⟨_, he⟩ | ⟨_, _, he⟩ <;>
      simp [exec, execMul, he] at h <;> subst h <;> exact ⟨rfl, rfl⟩
  | cmp ra rb =>
    rcases aluStep_cases s .cmp ra rb with ⟨_, _, he⟩ | ⟨_, he⟩ | ⟨_, _, he⟩ <;>
      simp [exec, execCmp, he] at h <;> subst h <;> exact ⟨rfl, rfl⟩
  | jmp rt =>
    rcases takeJump_cases s rt with ⟨_, he⟩ | ⟨_, he⟩ <;>
      simp [exec, execJmp, he] at h <;> subst h <;> exact ⟨rfl, rfl⟩
  | jeq rt =>
    cases hE : s.fl.equal <;> rcases takeJump_cases s rt with ⟨_, he⟩ | ⟨_, he⟩ <;>
      simp [exec, execJeq, hE, he] at h <;> subst h <;> exact ⟨rfl, rfl⟩
  | jne rt =>
    cases hE : s.fl.equal <;> rcases takeJump_cases s rt with ⟨_, he⟩ | ⟨_, he⟩ <;>
      simp [exec, execJne, hE, he] at h <;> subst h <;> exact ⟨rfl, rfl⟩

end Sys2Proof.Machine
end

