-- ==== Sys2Proof/Laws/Memory.lean ====
section
/-! SUPPORT. Every operation on memory keeps its canonical form and lists only cells that exist. -/

namespace Sys2Proof.Machine

/-- A write lists no address but the old ones and its own. -/
theorem Memory.fst_mem_write {m : Memory} {a : Nat} {v : Byte} {cell : Host.Cell}
    (h : cell ∈ m.write a v) : cell ∈ m ∨ cell.1 = a := by
  induction m with
  | nil => simp only [Memory.write] at h; split at h <;> simp_all
  | cons head m ih =>
    obtain ⟨k, w⟩ := head
    simp only [Memory.write] at h
    split_ifs at h <;> simp_all <;> grind

/-- A write lists no unlisted byte. -/
theorem Memory.snd_mem_write {m : Memory} {a : Nat} {v : Byte} {cell : Host.Cell}
    (hm : ∀ p ∈ m, p.2 ≠ Memory.unlisted) (h : cell ∈ m.write a v) : cell.2 ≠ Memory.unlisted := by
  induction m with
  | nil => simp only [Memory.write] at h; split at h <;> simp_all
  | cons head m ih =>
    obtain ⟨k, w⟩ := head
    simp only [Memory.write] at h
    split_ifs at h <;> simp_all <;> grind

/-- A write keeps the addresses strictly rising. -/
theorem Memory.pairwise_write {m : Memory} (hm : m.Pairwise fun p q => p.1 < q.1) (a : Nat) (v : Byte) :
    (m.write a v).Pairwise fun p q => p.1 < q.1 := by
  induction m with
  | nil => simp only [Memory.write]; split <;> simp
  | cons head m ih =>
    obtain ⟨k, w⟩ := head
    rw [List.pairwise_cons] at hm
    simp only [Memory.write]
    split_ifs with hlt hv heq hv
    · exact List.pairwise_cons.2 hm
    · refine List.pairwise_cons.2 ⟨fun q hq => ?_, List.pairwise_cons.2 hm⟩
      rcases List.mem_cons.1 hq with rfl | hq
      · exact hlt
      · exact hlt.trans (hm.1 q hq)
    · exact hm.2
    · exact List.pairwise_cons.2 ⟨fun q hq => heq ▸ hm.1 q hq, hm.2⟩
    · refine List.pairwise_cons.2 ⟨fun q hq => ?_, ih hm.2⟩
      rcases Memory.fst_mem_write hq with hq | hq
      · exact hm.1 q hq
      · show k < q.1
        omega

/-- Writing keeps the canonical form. -/
theorem Memory.wf_write {m : Memory} (hm : m.wf) (a : Nat) (v : Byte) : (m.write a v).wf :=
  ⟨Memory.pairwise_write hm.1 a v, fun _ hc => Memory.snd_mem_write hm.2 hc⟩

/-- `MemWrite` keeps the canonical form. -/
theorem memWrite_wf {c : Config} {m m' : Memory} {a : Nat} {v : Byte} (hm : m.wf)
    (h : memWrite c m a v = .ok m') : m'.wf := by
  unfold memWrite at h
  split at h
  · cases h; exact Memory.wf_write hm a v
  · cases h

/-- `MemWrite` lists only cells that exist. -/
theorem memWrite_inRange {c : Config} {m m' : Memory} {a : Nat} {v : Byte}
    (hm : ∀ cell ∈ m, cell.1 < c.memSize) (h : memWrite c m a v = .ok m') : ∀ cell ∈ m', cell.1 < c.memSize := by
  unfold memWrite at h
  split at h
  case isTrue ha =>
    cases h
    intro cell hc
    rcases Memory.fst_mem_write hc with hc | hc
    · exact hm cell hc
    · exact hc ▸ ha
  case isFalse => cases h

/-- Placing bytes keeps the canonical form. -/
theorem pokeBytes_wf {c : Config} {m : Memory} (hm : m.wf) (a : Nat) (bs : List Byte) : (pokeBytes c m a bs).wf := by
  induction bs generalizing m a with
  | nil => exact hm
  | cons b bs ih =>
    refine ih ?_ _
    split
    · exact Memory.wf_write hm a b
    · exact hm

/-- Placing an image keeps the canonical form. -/
theorem placeImage_wf {c : Config} {m m' : Memory} {a : Nat} {bs : List Byte} (hm : m.wf)
    (h : placeImage c m a bs = .ok m') : m'.wf := by
  induction bs generalizing m a with
  | nil => cases h; exact hm
  | cons b bs ih =>
    simp only [placeImage, bind, Except.bind] at h
    split at h
    · cases h
    case h_2 m1 h1 => exact ih (memWrite_wf hm h1) h

/-- The memory at reset is in canonical form. -/
theorem reset_mem_wf : State.reset.mem.wf := by simp [State.reset, Memory.wf]

end Sys2Proof.Machine
end

