-- ==== Sys2Proof/Laws/PerInstr.lean ====
section
/-! SUPPORT. Statements made for every instruction, one lemma per constructor. -/

namespace Sys2Proof.Laws.EncodingShape

/-- The bytes of an instruction are its opcode and as many operands as its row counts, one byte more than bits [7:6] of
its opcode say under a legal configuration (30_encoding.md R70, R71, R76). -/
def Statement (i : Instr) : Prop :=
  ∀ c : Config, c.Legal →
    (encodeWith c i).length = 1 + i.operandCount ∧ operandCountField (i.opcode c) = i.operandCount

theorem hlt : Statement .hlt := fun c h => ⟨rfl, (h.2 (c.opHlt, 0) (by simp [Config.opcodeRows])).1⟩

theorem ldi (rd imm : Byte) : Statement (.ldi rd imm) :=
  fun c h => ⟨rfl, (h.2 (c.opLdi, 2) (by simp [Config.opcodeRows])).1⟩

theorem prn (rs : Byte) : Statement (.prn rs) :=
  fun c h => ⟨rfl, (h.2 (c.opPrn, 1) (by simp [Config.opcodeRows])).1⟩

theorem mul (rd rs : Byte) : Statement (.mul rd rs) :=
  fun c h => ⟨rfl, (h.2 (c.opMul, 2) (by simp [Config.opcodeRows])).1⟩

theorem cmp (ra rb : Byte) : Statement (.cmp ra rb) :=
  fun c h => ⟨rfl, (h.2 (c.opCmp, 2) (by simp [Config.opcodeRows])).1⟩

theorem jmp (rt : Byte) : Statement (.jmp rt) :=
  fun c h => ⟨rfl, (h.2 (c.opJmp, 1) (by simp [Config.opcodeRows])).1⟩

theorem jeq (rt : Byte) : Statement (.jeq rt) :=
  fun c h => ⟨rfl, (h.2 (c.opJeq, 1) (by simp [Config.opcodeRows])).1⟩

theorem jne (rt : Byte) : Statement (.jne rt) :=
  fun c h => ⟨rfl, (h.2 (c.opJne, 1) (by simp [Config.opcodeRows])).1⟩

end Sys2Proof.Laws.EncodingShape
end

