-- ==== Sys2Proof/Tests/Slice0.lean ====
section
/-! SUPPORT. Tests. The expected results are the spec's: words written out from 30_encoding.md R73, vectors of
95_test_vectors.md by their names. Then, for every statement with hypotheses, a witness that meets them all. -/

namespace Sys2Proof.Tests

open Sys2Proof.Machine

/-- A Running machine at `pc` with the given bytes there and the given registers; the rest as at reset. -/
def demo (pc : Nat) (bytes : List Byte) (x : RegFile) : State :=
  { State.reset with mem := pokeBytes Config.standard [] pc bytes, pc := pc, x := x }

/-- The flags set by name: (E,G,L). -/
def withFlags (s : State) (e g l : Bool) : State := { s with fl := ⟨e, g, l⟩ }

/-- The outcome is a next state with the property. -/
def gives (o : StepOutcome) (p : State → Bool) : Bool :=
  match o with
  | .next t => p t
  | .fault _ => false
  | .refused _ => false

/-- The default configuration with ADD dispatched. -/
def withAdd : Config := { Config.standard with addDispatch := true }

/-- The default configuration, strict about unknown opcodes. -/
def strict : Config := { Config.standard with strictUnknown := true }

/-! ## Well-formedness refuses each ill-formed term -/

theorem test_ldi_bad_register_illformed : (Instr.ldi 8 0).wellFormed = false := by decide
theorem test_prn_bad_register_illformed : (Instr.prn 8).wellFormed = false := by decide
theorem test_mul_bad_destination_illformed : (Instr.mul 8 0).wellFormed = false := by decide
theorem test_mul_bad_source_illformed : (Instr.mul 0 255).wellFormed = false := by decide
theorem test_cmp_bad_left_illformed : (Instr.cmp 8 0).wellFormed = false := by decide
theorem test_cmp_bad_right_illformed : (Instr.cmp 7 8).wellFormed = false := by decide
theorem test_jmp_bad_register_illformed : (Instr.jmp 8).wellFormed = false := by decide
theorem test_jeq_bad_register_illformed : (Instr.jeq 9).wellFormed = false := by decide
theorem test_jne_bad_register_illformed : (Instr.jne 9).wellFormed = false := by decide
theorem test_ldi_any_immediate_wellformed : (Instr.ldi 7 255).wellFormed = true := by decide

/-- R5: the defaults meet the three conditions. -/
theorem test_standard_legal : Config.standard.Legal := by decide
/-- R5: two equal opcodes are refused. -/
theorem test_equal_opcodes_illegal : ¬ Config.Legal { Config.standard with opJne := 0x55 } := by decide
/-- R5: bits [7:6] that are not the operand count are refused. -/
theorem test_wrong_count_bits_illegal : ¬ Config.Legal { Config.standard with opHlt := 0x41 } := by decide
/-- R5: 0xFF is refused (for an operand count it could have, the bits refuse it too). -/
theorem test_ff_illegal : ¬ Config.Legal { Config.standard with opMul := 0xFF } := by decide

/-! ## Decoding words written out from R73 -/

theorem test_decode_hlt : decode 0b00000001#8 9 9 = .instr .hlt := by decide
theorem test_decode_ldi : decode 0b10000010#8 0 42 = .instr (.ldi 0 42) := by decide
theorem test_decode_prn : decode 0b01000111#8 3 9 = .instr (.prn 3) := by decide
theorem test_decode_mul : decode 0b10100010#8 4 5 = .instr (.mul 4 5) := by decide
theorem test_decode_cmp : decode 0b10100111#8 2 5 = .instr (.cmp 2 5) := by decide
theorem test_decode_jmp : decode 0b01010100#8 2 9 = .instr (.jmp 2) := by decide
theorem test_decode_jeq : decode 0b01010101#8 2 9 = .instr (.jeq 2) := by decide
theorem test_decode_jne : decode 0b01010110#8 3 9 = .instr (.jne 3) := by decide
theorem test_decode_unknown : decode 0xFF#8 9 9 = .unknown 0xFF := by decide
theorem test_decode_add_not_dispatched : decode 0b10100000#8 0 1 = .unknown 0xA0 := by decide
theorem test_decode_add_dispatched : decodeWith withAdd 0b10100000#8 0 1 = .add 0 1 := by decide
theorem test_encode_ldi : encode (.ldi 0 42) = [0b10000010#8, 0b00000000#8, 0b00101010#8] := by decide
theorem test_table_word_ldi : decodeTableWord 24 0x2A0082 = some (.ldi 0 42) := by decide
theorem test_table_word_short : decodeTableWord 8 0x47 = some (.prn 0) := by decide

/-! ## One step of each instruction (95_test_vectors.md, parts 2.1 to 2.6) -/

/-- H2: the last address from which anything executes. -/
theorem test_hlt_at_253 : gives (step (demo 253 [0x01, 0, 0] RegFile.zero))
    (fun t => t.run = .halted && t.pc = 254) = true := by decide
/-- H3: faulted, not halted. -/
theorem test_hlt_at_254 : gives (step (demo 254 [0x01, 0] RegFile.zero))
    (fun t => t.run = .faulted (.outOfBounds 256) && t.pc = 254) = true := by decide
/-- L3. -/
theorem test_ldi_r7 : gives (step (demo 0 [0x82, 7, 255] RegFile.zero))
    (fun t => t.x = #v[0, 0, 0, 0, 0, 0, 0, 255] && t.pc = 3) = true := by decide
/-- L4. -/
theorem test_ldi_bad_register : gives (step (demo 0 [0x82, 8, 5] RegFile.zero))
    (fun t => t.run = .faulted (.invalidRegister 8) && t.x = RegFile.zero && t.pc = 0) = true := by decide
/-- O1. -/
theorem test_prn : gives (step (demo 3 [0x47, 0, 9] #v[42, 0, 0, 0, 0, 0, 0, 0]))
    (fun t => t.out = [42] && t.pc = 5) = true := by decide
/-- O5. -/
theorem test_prn_at_254 : gives (step (demo 254 [0x47, 0] RegFile.zero))
    (fun t => t.run = .faulted (.outOfBounds 256) && t.out = []) = true := by decide
/-- M6 and M14. -/
theorem test_mul_wraps_keeps_flags : gives (step (withFlags (demo 6 [0xA2, 0, 1] #v[100, 3, 0, 0, 0, 0, 0, 0]) false true false))
    (fun t => t.x = #v[44, 3, 0, 0, 0, 0, 0, 0] && t.pc = 9 && t.fl = ⟨false, true, false⟩) = true := by decide
/-- M11: the stack-pointer register as destination. -/
theorem test_mul_stack_pointer : gives (step (demo 0 [0xA2, spIndex, 0] #v[5, 0, 0, 0, 0, 0, 0, 5]))
    (fun t => t.x = #v[5, 0, 0, 0, 0, 0, 0, 25]) = true := by decide
/-- M13: operand_a is checked first. -/
theorem test_mul_first_bad_operand : gives (step (demo 3 [0xA2, 8, 9] RegFile.zero))
    (fun t => t.run = .faulted (.invalidRegister 8) && t.pc = 3) = true := by decide
/-- C4: unsigned. -/
theorem test_cmp_unsigned : gives (step (demo 0 [0xA7, 0, 1] #v[200, 100, 0, 0, 0, 0, 0, 0]))
    (fun t => t.fl = ⟨false, true, false⟩ && t.pc = 3) = true := by decide
/-- C8: contents, not indices; the old flags are overwritten. -/
theorem test_cmp_contents : gives (step (withFlags (demo 0 [0xA7, 2, 5] #v[0, 0, 9, 0, 0, 9, 0, 0]) false false true))
    (fun t => t.fl = ⟨true, false, false⟩) = true := by decide
/-- J1. -/
theorem test_jmp : gives (step (demo 6 [0x54, 0, 9] #v[2, 0, 0, 0, 0, 0, 0, 0])) (fun t => t.pc = 2) = true := by decide
/-- J4. -/
theorem test_jmp_bad_register : gives (step (demo 0 [0x54, 8, 0] RegFile.zero))
    (fun t => t.run = .faulted (.invalidRegister 8) && t.pc = 0) = true := by decide
/-- J5. -/
theorem test_jeq_taken : gives (step (withFlags (demo 39 [0x55, 2, 0] #v[0, 0, 43, 0, 0, 0, 0, 0]) true false false))
    (fun t => t.pc = 43) = true := by decide
/-- J11: untaken, the bad index is not validated. -/
theorem test_jeq_untaken_bad_register : gives (step (demo 0 [0x55, 9, 0] RegFile.zero))
    (fun t => t.pc = 2 && t.run = .running) = true := by decide
/-- J8: taken before any CMP. -/
theorem test_jne_taken_at_reset_flags : gives (step (demo 3 [0x56, 0, 0] #v[6, 0, 0, 0, 0, 0, 0, 0]))
    (fun t => t.pc = 6) = true := by decide
/-- J12: taken, so the bad index faults. -/
theorem test_jne_taken_bad_register : gives (step (demo 0 [0x56, 9, 0] RegFile.zero))
    (fun t => t.run = .faulted (.invalidRegister 9) && t.pc = 0) = true := by decide
/-- X4: the advance is 1 whatever bits [7:6] say; the bytes after it are not validated. -/
theorem test_unknown_top_bits : gives (step (demo 0 [0xC3, 9, 9] RegFile.zero))
    (fun t => t.pc = 1 && t.run = .running && t.diag = [⟨0xC3, 0⟩]) = true := by decide
/-- X5: the strict form. -/
theorem test_unknown_strict : gives (stepWith strict (demo 0 [0xFF, 0, 0] RegFile.zero))
    (fun t => t.run = .faulted (.unknownOpcode 0xFF 0) && t.pc = 0 && t.diag = []) = true := by decide
/-- A1, executed where ADD is dispatched. -/
theorem test_add_wraps : gives (stepWith withAdd (demo 0 [0xA0, 0, 1] #v[250, 10, 0, 0, 0, 0, 0, 0]))
    (fun t => t.x = #v[4, 10, 0, 0, 0, 0, 0, 0] && t.pc = 3) = true := by decide
/-- The first step after reset runs the placed instruction. -/
theorem test_fetch_word_runs : gives (step (State.reset.withFetchWord 24 0x2A0082))
    (fun t => t.x = #v[42, 0, 0, 0, 0, 0, 0, 0] && t.pc = 3) = true := by decide

/-! ## The host's side -/

/-- R34: 42 prints as "42" and a line end. -/
theorem test_render : renderOut [42, 0, 255] = ['4', '2', '\n', '0', '\n', '2', '5', '5', '\n'] := by decide
/-- The notation of 95_test_vectors.md P1 and P8. -/
theorem test_assembly : assembly (.ldi 0 8) = "LDI R0, 8".toList ∧ assembly (.mul 0 1) = "MUL R0, R1".toList ∧
    assembly (.prn 8) = "PRN R8".toList := by decide
/-- R182's example line. -/
theorem test_read_line : readLine "10000010 # LDI R0,42".toList = .byte 0x82 := by decide
/-- R182: a comment-only line is skipped, a token that is no numeral is malformed, a prefix is left open. -/
theorem test_read_line_kinds : readLine ['#', '1'] = .skip ∧ readLine ['1', '2'] = .malformed ∧
    readLine ['0', 'b', '1'] = .leftOpen ∧ readLine ['0', 'B', '1'] = .leftOpen ∧ readLine ['1', '0', '1'] = .leftOpen ∧
    readLine ['1', '0', '0', '0', '0', '0', '0', '0', '0'] = .malformed := by decide

/-! ## Witnesses: for every statement with hypotheses, values that meet them all -/

theorem withAdd_legal : withAdd.Legal ∧ withAdd.addDispatch = true := by decide

/-- Legal maps, one with ADD; each clause of the statement has its opcode byte. -/
theorem witness_DecodeMatchesWholeOpcodeByte : Config.standard.Legal ∧ withAdd.Legal ∧ withAdd.addDispatch = true ∧
    (0x00 : Byte) ∉ Config.standard.opcodes := by decide
theorem witness_DecodeOfEncodeIsIdentity : withAdd.Legal ∧ withAdd.addDispatch = true := by decide
theorem witness_EncodeOfDecodeIsPrefix : decodeWith withAdd 0x82 255 255 = .instr (.ldi 255 255) ∧
    decodeWith withAdd 0xA0 255 8 = .add 255 8 := by decide
theorem witness_LengthFollowsRowNotTopBits : withAdd.Legal ∧ decodeWith withAdd 0x82 0 0 = .instr (.ldi 0 0) ∧
    decodeWith withAdd 0xA0 0 1 = .add 0 1 ∧ (0xC3 : Byte) ∉ withAdd.opcodes ∧ withAdd.strictUnknown = false ∧
    State.reset.run = .running ∧ State.reset.pc + 3 < withAdd.memSize := by decide

/-- The boundary register indices of the clauses about one operand: 7 names a register, 8 and 255 do not. -/
theorem witness_LdiLoadsImmediate : Config.standard.Legal ∧ (7 : Byte).toNat < 8 ∧ 8 ≤ (8 : Byte).toNat := by decide
theorem witness_PrnEmitsRegister : Config.standard.Legal ∧ (7 : Byte).toNat < 8 ∧ 8 ≤ (8 : Byte).toNat := by decide
theorem witness_MulWritesProductMod256 : Config.standard.Legal ∧ ((0 : Byte).toNat < 8 ∧ (7 : Byte).toNat < 8) ∧
    8 ≤ (8 : Byte).toNat ∧ ((7 : Byte).toNat < 8 ∧ 8 ≤ (255 : Byte).toNat) := by decide
theorem witness_CmpSetsExactlyOneFlag : Config.standard.Legal ∧ ((0 : Byte).toNat < 8 ∧ (7 : Byte).toNat < 8) ∧
    8 ≤ (8 : Byte).toNat ∧ ((7 : Byte).toNat < 8 ∧ 8 ≤ (255 : Byte).toNat) := by decide
theorem witness_JmpReplacesPc : Config.standard.Legal ∧ (7 : Byte).toNat < 8 ∧ 8 ≤ (8 : Byte).toNat := by decide
theorem witness_JeqTakenIffEqual : Config.standard.Legal ∧
    ((withFlags State.reset true false false).fl.equal = true ∧ (7 : Byte).toNat < 8 ∧ 8 ≤ (8 : Byte).toNat) ∧
    State.reset.fl.equal = false := by decide
theorem witness_JneTakenIffNotEqual : Config.standard.Legal ∧
    (State.reset.fl.equal = false ∧ (7 : Byte).toNat < 8 ∧ 8 ≤ (8 : Byte).toNat) ∧
    (withFlags State.reset true false false).fl.equal = true := by decide
/-- HLT at N - 2 and at N - 1. -/
theorem witness_HltHalts : Config.standard.Legal ∧
    (∀ a ∈ [254, 255], let s := demo a [0x01] RegFile.zero
      s.run = .running ∧ s.mem.read s.pc = Config.standard.opHlt ∧ s.pc < Config.standard.memSize ∧
      Config.standard.memSize ≤ s.pc + 2) := by decide
/-- At the last address from which a step fetches, lenient and strict. -/
theorem witness_UnknownOpcodeIsReportedAndSkipped : let s := demo 253 [0xFF] RegFile.zero
    (s.run = .running ∧ s.pc + 2 < Config.standard.memSize ∧ s.mem.read s.pc ∉ Config.standard.opcodes ∧
      Config.standard.strictUnknown = false) ∧
    (s.pc + 2 < strict.memSize ∧ s.mem.read s.pc ∉ strict.opcodes ∧ strict.strictUnknown = true) := by decide
theorem witness_AddWritesSumMod256 : withAdd.Legal ∧ withAdd.addDispatch = true ∧
    ((0 : Byte).toNat < 8 ∧ (7 : Byte).toNat < 8) ∧ 8 ≤ (8 : Byte).toNat ∧
    ((7 : Byte).toNat < 8 ∧ 8 ≤ (255 : Byte).toNat) := by decide
theorem witness_AluTouchesOnlyRegistersOrFlags :
    (∃ r, alu .mul 7 0 RegFile.zero Flags.none = .ok r) ∧ (∃ r, alu .add 7 0 RegFile.zero Flags.none = .ok r) ∧
    (∃ r, alu .cmp 7 0 RegFile.zero Flags.none = .ok r) ∧ ∃ t, State.reset.aluStep .cmp 0 7 = .ok t :=
  ⟨⟨_, rfl⟩, ⟨_, rfl⟩, ⟨_, rfl⟩, _, rfl⟩
theorem witness_PcAdvancePerInstruction : (7 : Byte).toNat < 8 ∧ Config.standard.strictUnknown = false ∧
    (0xC3 : Byte) ∉ Config.standard.opcodes := by decide

theorem witness_RegisterWriteFrame : (∃ t, exec (.ldi 7 1) State.reset = .next t) ∧
    (∃ t, exec (.ldi 8 1) State.reset = .next t) ∧ (∃ t, exec (.mul 0 7) State.reset = .next t) ∧
    ∃ t, execAdd 0 7 State.reset = .next t :=
  ⟨⟨_, rfl⟩, ⟨_, rfl⟩, ⟨_, rfl⟩, _, rfl⟩
theorem witness_CompareFrame : (∃ t, exec (.cmp 0 7) State.reset = .next t) ∧
    ∃ t, exec (.cmp 0 8) State.reset = .next t :=
  ⟨⟨_, rfl⟩, _, rfl⟩
theorem witness_PrintFrame : (∃ t, exec (.prn 7) State.reset = .next t) ∧ ∃ t, exec (.prn 8) State.reset = .next t :=
  ⟨⟨_, rfl⟩, _, rfl⟩
theorem witness_JumpFrame : (∃ t, exec (.jmp 7) State.reset = .next t) ∧ (∃ t, exec (.jeq 7) State.reset = .next t) ∧
    ∃ t, exec (.jne 8) State.reset = .next t :=
  ⟨⟨_, rfl⟩, ⟨_, rfl⟩, _, rfl⟩
theorem witness_HaltAndUnknownFrame : (∃ t, exec .hlt State.reset = .next t) ∧
    (∃ t, execUnknown Config.standard 0xFF State.reset = .next t) ∧ ∃ t, execUnknown strict 0xFF State.reset = .next t :=
  ⟨⟨_, rfl⟩, ⟨_, rfl⟩, _, rfl⟩

theorem witness_StepDefinedExactlyInRunning : State.reset.run = .running ∧
    ({ State.reset with run := .halted } : State).run ≠ .running := by decide
/-- At the last address from which a step fetches. -/
theorem witness_StepRunsDecodedInstruction : let s := demo 253 [0x47, 0] RegFile.zero
    s.run = .running ∧ s.pc + 2 < Config.standard.memSize ∧
    decode (s.mem.read s.pc) (s.mem.read (s.pc + 1)) (s.mem.read (s.pc + 2)) = .instr (.prn 0) := by decide
/-- At N - 2, at N and above N. -/
theorem witness_FetchBeyondMemoryRaises : ∀ a ∈ [254, 256, 300], let s := demo a [] RegFile.zero
    s.run = .running ∧ Config.standard.memSize ≤ s.pc + 2 := by decide
theorem witness_FaultingStepHasNoOtherEffect : ∃ t, stepWith Config.standard (demo 0 [0xA2, 0, 8] RegFile.zero) = .next t ∧
    t.run = .faulted (.invalidRegister 8) := ⟨_, rfl, rfl⟩
/-- One witness for each of the four causes. -/
theorem witness_EveryFaultHasItsCause :
    (∃ t, stepWith Config.standard (demo 254 [] RegFile.zero) = .next t ∧ t.run = .faulted (.outOfBounds 256)) ∧
    (∃ t, stepWith strict (demo 0 [] RegFile.zero) = .next t ∧ t.run = .faulted (.unknownOpcode 0 0)) ∧
    (∃ t, stepWith Config.standard (demo 0 [0x47, 8] RegFile.zero) = .next t ∧ t.run = .faulted (.invalidRegister 8)) ∧
    ∃ t, stepWith Config.standard (demo 0 [0xA7, 7, 9] RegFile.zero) = .next t ∧ t.run = .faulted (.invalidRegister 9) :=
  ⟨⟨_, rfl, rfl⟩, ⟨_, rfl, rfl⟩, ⟨_, rfl, rfl⟩, _, rfl, rfl⟩
theorem witness_UnsupportedAluOpIsUnreachable : (∃ t, stepWith Config.standard (demo 0 [0xA2, 0, 1] RegFile.zero) = .next t) ∧
    State.reset.run ≠ .faulted .unsupportedAluOp := ⟨⟨_, rfl⟩, by decide⟩
theorem witness_OnlyHltHalts : ∃ t, stepWith Config.standard (demo 5 [0x01] RegFile.zero) = .next t ∧ t.run = .halted :=
  ⟨_, rfl, rfl⟩
theorem witness_WellFormedInstructionNeverRaises : (Instr.mul 0 7).wellFormed = true ∧ State.reset.run = .running := by
  decide
/-- The first target that faults, for each of the three jumps taken. -/
theorem witness_BadTargetFaultsAtNextStep : let s := demo 3 [0x54, 7] #v[0, 0, 0, 0, 0, 0, 0, 254]
    let e := withFlags s true false false
    ∀ u ∈ [(s, Instr.jmp 7), (e, Instr.jeq 7), (s, Instr.jne 7)],
      (7 : Byte).toNat < 8 ∧ u.1.run = .running ∧
      (u.2 = .jmp 7 ∨ (u.2 = .jeq 7 ∧ u.1.fl.equal = true) ∨ (u.2 = .jne 7 ∧ u.1.fl.equal = false)) ∧
      Config.standard.memSize ≤ (u.1.x[7]).toNat + 2 := by decide
theorem witness_OnlyCmpWritesFlags : (∃ t, stepWith Config.standard (demo 0 [0x82, 0, 1] RegFile.zero) = .next t) ∧
    (demo 0 [0x82, 0, 1] RegFile.zero).mem.read 0 ≠ Config.standard.opCmp := ⟨⟨_, rfl⟩, by decide⟩
theorem witness_OneFlagStaysSetAfterCompare : (withFlags State.reset false true false).fl.count = 1 := by decide
/-- Two states that differ in everything that is never read. -/
theorem witness_UnreadStateNeverMatters : AgreeOnWhatIsRead State.reset
    { State.reset with fl := ⟨false, true, true⟩, out := [1], diag := [⟨0, 0⟩] } := ⟨rfl, rfl, rfl, rfl, rfl⟩
/-- A memory that differs from the machine's in the fourth cell. -/
theorem witness_StepReadsOnlyThreeCells : let s := demo 0 [0x82, 0, 1] RegFile.zero
    (∀ k, k ≤ 2 → (s.mem.write 3 9).read (s.pc + k) = s.mem.read (s.pc + k)) ∧
    ∃ t, stepWith Config.standard s = .next t :=
  ⟨by decide, _, rfl⟩
/-- MUL R0, R1 with other values in the six registers it does not read. -/
theorem witness_InstructionUsesOnlyItsRegisters : let s := demo 0 [] #v[2, 3, 0, 0, 0, 0, 0, 0]
    let y : RegFile := #v[2, 3, 9, 9, 9, 9, 9, 9]
    s.run = .running ∧ (∀ r ∈ regsRead s.fl (.mul 0 1), ∀ h : r.toNat < 8, y[r.toNat] = s.x[r.toNat]) ∧
    ∃ t, exec (.mul 0 1) s = .next t :=
  ⟨rfl, by decide, _, rfl⟩
/-- A state in the middle of a run, with a record in DIAG and a flag set. -/
theorem witness_StepKeepsInvariant : let s := { withFlags (demo 4 [0x82, 0, 1] RegFile.zero) true false false with
      diag := [⟨0, 3⟩], out := [7] }
    Config.standard.Legal ∧ Inv Config.standard s ∧ ∃ t, step s = .next t :=
  ⟨by decide, ⟨⟨by decide, by decide⟩, by unfold FlagsOk; decide, by decide, by unfold DiagOk; decide, trivial⟩, _, rfl⟩
/-- R152: an LDI does not access operand_b as a register, so InvalidRegister of it explains no stop. -/
theorem test_unaccessed_operand_explains_no_fault :
    ¬ RunOk Config.standard { demo 0 [0x82, 0, 9] RegFile.zero with run := .faulted (.invalidRegister 9) } := by
  intro h
  exact absurd (congrArg (fun o => gives o fun t => t.run = .running) h.1) (by decide)
/-- R152: a PRN does access operand_a. -/
theorem test_accessed_operand_explains_fault :
    RunOk Config.standard { demo 0 [0x47, 9] RegFile.zero with run := .faulted (.invalidRegister 9) } :=
  ⟨rfl, by unfold ErrorOk; decide⟩
theorem witness_LaunchStateMeetsInvariant : ∃ s, load Config.standard [0x82, 0, 42] = .ok s := ⟨_, rfl⟩
/-- Nothing in memory, at the last address from which a step fetches and past it. -/
theorem witness_RunOffTheEndFaults : ∀ a ∈ [253, 254], let s := demo a [] RegFile.zero
    Config.standard.strictUnknown = false ∧ (0x00 : Byte) ∉ Config.standard.opcodes ∧ s.run = .running ∧
    s.pc + 2 ≤ Config.standard.memSize ∧ (∀ b, s.pc ≤ b → b < Config.standard.memSize → s.mem.read b = 0x00) := by
  intro a ha
  refine ⟨rfl, by decide, rfl, ?_, fun b _ _ => rfl⟩
  rcases List.mem_cons.1 ha with rfl | ha
  · decide
  · cases List.mem_singleton.1 ha; decide
/-- A machine whose R0 holds the address of its own JMP R0. -/
theorem witness_SelfJumpRunsForever : let s := demo 3 [0x54, 0] #v[3, 0, 0, 0, 0, 0, 0, 0]
    (0 : Byte).toNat < 8 ∧ s.run = .running ∧ s.pc + 2 < Config.standard.memSize ∧
    decodeWith Config.standard (s.mem.read s.pc) (s.mem.read (s.pc + 1)) (s.mem.read (s.pc + 2)) = .instr (.jmp 0) ∧
    (s.x[0]).toNat = s.pc := by decide
/-- The last address and the first that does not exist, in a memory with an entry at the address written. -/
theorem witness_MemoryPortContract : Memory.wf [(255, 7)] ∧ 255 < Config.standard.memSize ∧
    Config.standard.memSize ≤ 256 := by decide
theorem witness_CanonicalMemoryIsUnique : Memory.wf [(3, 1), (9, 2)] ∧
    ∀ a, Memory.read [(3, 1), (9, 2)] a = Memory.read [(3, 1), (9, 2)] a := ⟨by decide, fun _ => rfl⟩
/-- The longest image, and the shortest that is too long. -/
theorem witness_LoadPlacesImage : (List.replicate 256 (1 : Byte)).length ≤ Config.standard.memSize := by
  rw [List.length_replicate]; decide
theorem witness_OverlongImageIsRefused : Config.standard.memSize < (List.replicate 257 (1 : Byte)).length := by
  rw [List.length_replicate]; decide
theorem witness_FetchWordRunsItsInstruction : let s := demo 253 [0xFF, 0xFF, 0xFF] RegFile.zero
    s.mem.wf ∧ s.run = .running ∧ s.pc + 2 < Config.standard.memSize ∧
    decodeTableWord 24 0x2A0082 = some (.ldi 0 42) := by decide
/-- A comment with a '#' in it, and an empty one. -/
theorem witness_ImageTextOfBinaryLines : ∀ p ∈ [((0x82 : Byte), ['L', '#']), (0, [])], '\n' ∉ p.2 := by decide

end Sys2Proof.Tests
end

/-! PROOFS. What each arm of the dispatch table answers on valid register operands (spec/10_state.md R22, R26). -/

namespace Sys2Proof.Machine

/-! ## The next state of each arm -/

theorem exec_hlt (s : State) : exec .hlt s = .next { s.advance 1 with run := .halted } := rfl

theorem exec_ldi_of_lt {rd : Byte} (imm : Byte) (s : State) (h : rd.toNat < 8) :
    exec (.ldi rd imm) s = .next (State.advance { s with x := s.x.set rd.toNat imm h } 3) := by
  simp [exec, execLdi, h, bind, Except.bind, pure, Except.pure]

theorem exec_prn_of_lt {rs : Byte} (s : State) (h : rs.toNat < 8) :
    exec (.prn rs) s = .next ((s.emit s.x[rs.toNat]).advance 2) := by
  simp [exec, execPrn, h, bind, Except.bind, pure, Except.pure]

/-- Every ALU operation, and so MUL, CMP and ADD, advances `pc` by 3. -/
theorem commit_aluStep_pc_of_lt {a b : Byte} (s : State) (op : AluOp) (ha : a.toNat < 8) (hb : b.toNat < 8) :
    ∃ t, s.commit (s.aluStep op a b) = .next t ∧ t.pc = s.pc + 3 := by
  rcases aluStep_cases s op a b with ⟨_, _, hok⟩ | ⟨ha', _⟩ | ⟨_, hb', _⟩
  · rw [hok, commit_ok]
    exact ⟨_, rfl, by cases op <;> rfl⟩
  · omega
  · omega

theorem takeJump_of_lt {rt : Byte} (s : State) (h : rt.toNat < 8) :
    s.takeJump rt = .ok (s.jumpTo s.x[rt.toNat]) := by
  rcases takeJump_cases s rt with ⟨_, hok⟩ | ⟨hge, _⟩
  · exact hok
  · omega

theorem exec_jmp_of_lt {rt : Byte} (s : State) (h : rt.toNat < 8) :
    exec (.jmp rt) s = .next (s.jumpTo s.x[rt.toNat]) := by
  simp [exec, execJmp, takeJump_of_lt s h]

theorem exec_jeq_of_lt {rt : Byte} (s : State) (h : rt.toNat < 8) :
    exec (.jeq rt) s = .next (if s.fl.equal then s.jumpTo s.x[rt.toNat] else s.advance 2) := by
  cases hE : s.fl.equal <;> simp [exec, execJeq, hE, takeJump_of_lt s h]

theorem exec_jne_of_lt {rt : Byte} (s : State) (h : rt.toNat < 8) :
    exec (.jne rt) s = .next (if s.fl.equal then s.advance 2 else s.jumpTo s.x[rt.toNat]) := by
  cases hE : s.fl.equal <;> simp [exec, execJne, hE, takeJump_of_lt s h]

theorem execUnknown_of_lenient {c : Config} (opcode : Byte) (s : State) (h : c.strictUnknown = false) :
    execUnknown c opcode s = .next ((s.report opcode s.pc).advance 1) := by
  simp [execUnknown, h]

/-! ## The unknown byte -/

/-- A byte outside the opcode map decodes as unknown, whatever its bits [7:6] are. -/
theorem decodeWith_of_not_mem {c : Config} {ir : Byte} (a b : Byte) (h : ir ∉ c.opcodes) :
    decodeWith c ir a b = .unknown ir := by
  rcases decodeWith_cases c ir a b with
    ⟨e, _⟩ | ⟨e, _⟩ | ⟨e, _⟩ | ⟨e, _⟩ | ⟨e, _⟩ | ⟨e, _⟩ | ⟨e, _⟩ | ⟨e, _⟩ | ⟨hdispatch, e, _⟩ | ⟨_, hunknown⟩
  on_goal 10 => exact hunknown
  all_goals exact absurd (by simp [Config.opcodes, Config.opcodeRows, *]) h

/-! ## The new pc -/

/-- Settles O17: each row from its arm's next state. -/
theorem pcAdvancePerInstruction : Obligations.PcAdvancePerInstruction := by
  intro s
  refine ⟨?hlt, ?ldi, ?prn, ?mul, ?add, ?cmp, ?jmp, ?jeq, ?jne, ?unknown⟩
  case hlt => exact ⟨_, exec_hlt s, rfl⟩
  case ldi => exact fun _ imm h => ⟨_, exec_ldi_of_lt imm s h, rfl⟩
  case prn => exact fun _ h => ⟨_, exec_prn_of_lt s h, rfl⟩
  case mul => exact fun _ _ hd hs => commit_aluStep_pc_of_lt s .mul hd hs
  case add => exact fun _ _ hd hs => commit_aluStep_pc_of_lt s .add hd hs
  case cmp => exact fun _ _ ha hb => commit_aluStep_pc_of_lt s .cmp ha hb
  case jmp => exact fun _ h => ⟨_, exec_jmp_of_lt s h, rfl⟩
  case jeq => exact fun _ h => ⟨_, exec_jeq_of_lt s h, by simp [apply_ite State.pc]⟩
  case jne => exact fun _ h => ⟨_, exec_jne_of_lt s h, by simp [apply_ite State.pc]⟩
  case unknown =>
    intro c ir a b hlenient hir
    rw [decodeWith_of_not_mem a b hir, perform_unknown]
    exact ⟨_, execUnknown_of_lenient ir s hlenient, rfl⟩

end Sys2Proof.Machine

/-! PROOFS. What the decoder answers for each byte of a legal opcode map, and the length of what it answers
(spec/30_encoding.md R74, R76). -/

namespace Sys2Proof

section

variable {c : Config} {ir a b : Byte}

/-! ## The opcode map -/

theorem Config.opcodes_eq (c : Config) :
    c.opcodes = [c.opHlt, c.opLdi, c.opPrn, c.opMul, c.opCmp, c.opJmp, c.opJeq, c.opJne] ++
      if c.addDispatch then [c.opAdd] else [] := by
  cases hadd : c.addDispatch <;> simp [Config.opcodes, Config.opcodeRows, hadd]

theorem Instr.opcode_mem_opcodes (c : Config) (i : Instr) : i.opcode c ∈ c.opcodes := by
  rw [Config.opcodes_eq]
  cases i <;> simp [Instr.opcode]

theorem opAdd_mem_opcodes (hadd : c.addDispatch = true) : c.opAdd ∈ c.opcodes := by
  simp [Config.opcodes_eq, hadd]

/-- In a legal map the eight instructions have eight different opcodes, whether ADD is dispatched or not. -/
theorem Config.Legal.nodup_instr_opcodes (h : c.Legal) :
    [c.opHlt, c.opLdi, c.opPrn, c.opMul, c.opCmp, c.opJmp, c.opJeq, c.opJne].Nodup := by
  have hall := h.1
  rw [Config.opcodes_eq, List.nodup_append] at hall
  exact hall.1

/-- In a legal map the opcode of ADD, where it is dispatched, is that of no other row. -/
theorem Config.Legal.opcode_ne_opAdd (h : c.Legal) (hadd : c.addDispatch = true) (i : Instr) :
    i.opcode c ≠ c.opAdd := by
  have hnodup := h.1
  rw [Config.opcodes_eq, if_pos hadd, List.nodup_append] at hnodup
  obtain ⟨_, _, hdisjoint⟩ := hnodup
  exact hdisjoint _ (by cases i <;> simp [Instr.opcode]) _ (List.mem_singleton_self _)

theorem Config.Legal.operandCountField_opAdd (h : c.Legal) (hadd : c.addDispatch = true) :
    operandCountField c.opAdd = 2 :=
  (h.2 (c.opAdd, 2) (by simp [Config.opcodeRows, hadd])).1

theorem Config.Legal.ff_not_mem_opcodes (h : c.Legal) : (0xFF : Byte) ∉ c.opcodes := by
  intro hmem
  obtain ⟨row, hrow, hff⟩ := List.mem_map.1 hmem
  exact (h.2 row hrow).2 hff

/-! ## The decoder's answers -/

/-- The three kinds of answer: the table's instructions are one case, with the operand bytes they take. -/
theorem decodeWith_kinds (c : Config) (ir a b : Byte) :
    (∃ i : Instr, decodeWith c ir a b = .instr i ∧ ir = i.opcode c ∧ i.operands <+: [a, b]) ∨
    (decodeWith c ir a b = .add a b ∧ c.addDispatch = true ∧ ir = c.opAdd) ∨
    (decodeWith c ir a b = .unknown ir ∧ ir ∉ c.opcodes) := by
  rcases decodeWith_cases c ir a b with
    ⟨e, hd⟩ | ⟨e, hd⟩ | ⟨e, hd⟩ | ⟨e, hd⟩ | ⟨e, hd⟩ | ⟨e, hd⟩ | ⟨e, hd⟩ | ⟨e, hd⟩ | ⟨hadd, e, hd⟩ | ⟨hmem, hd⟩
  on_goal 9 => exact .inr (.inl ⟨hd, hadd, e⟩)
  on_goal 9 => exact .inr (.inr ⟨hd, hmem⟩)
  all_goals exact .inl ⟨_, hd, e, by simp [Instr.operands]⟩

theorem opcode_operands_of_decodeWith_eq_instr {i : Instr} (hd : decodeWith c ir a b = .instr i) :
    ir = i.opcode c ∧ i.operands <+: [a, b] := by
  rcases decodeWith_kinds c ir a b with ⟨j, hj, hrow⟩ | ⟨hadd, _⟩ | ⟨hunknown, _⟩
  · cases hj.symm.trans hd; exact hrow
  · cases hadd.symm.trans hd
  · cases hunknown.symm.trans hd

theorem dispatched_of_decodeWith_eq_add {rd rs : Byte} (hd : decodeWith c ir a b = .add rd rs) :
    c.addDispatch = true ∧ ir = c.opAdd ∧ rd = a ∧ rs = b := by
  rcases decodeWith_kinds c ir a b with ⟨i, hi, _⟩ | ⟨hadd, hdispatch, hir⟩ | ⟨hunknown, _⟩
  · cases hi.symm.trans hd
  · cases hadd.symm.trans hd; exact ⟨hdispatch, hir, rfl, rfl⟩
  · cases hunknown.symm.trans hd

theorem not_mem_opcodes_of_decodeWith_eq_unknown {x : Byte} (hd : decodeWith c ir a b = .unknown x) :
    ir ∉ c.opcodes := by
  rcases decodeWith_kinds c ir a b with ⟨i, hi, _⟩ | ⟨hadd, _⟩ | ⟨_, hmem⟩
  · cases hi.symm.trans hd
  · cases hadd.symm.trans hd
  · exact hmem

/-- The decoder tries the rows in order, and in a legal map no earlier row takes the opcode of an instruction. -/
theorem decodeWith_opcode (h : c.Legal) {i : Instr} (hops : i.operands <+: [a, b]) :
    decodeWith c (i.opcode c) a b = .instr i := by
  have hearlier := List.nodup_reverse.2 h.nodup_instr_opcodes
  simp only [List.reverse_cons, List.reverse_nil, List.nil_append, List.cons_append, List.nodup_cons, List.mem_cons,
    not_or] at hearlier
  cases i <;> simp_all [Instr.opcode, Instr.operands, decodeWith]

theorem decodeWith_opAdd (h : c.Legal) (hadd : c.addDispatch = true) (a b : Byte) :
    decodeWith c c.opAdd a b = .add a b := by
  rcases decodeWith_kinds c c.opAdd a b with ⟨i, _, hi, _⟩ | ⟨hd, _⟩ | ⟨_, hmem⟩
  · exact absurd hi.symm (h.opcode_ne_opAdd hadd i)
  · exact hd
  · exact absurd (opAdd_mem_opcodes hadd) hmem

theorem decodeWith_eq_instr_iff (h : c.Legal) (ir a b : Byte) (i : Instr) :
    decodeWith c ir a b = .instr i ↔ ir = i.opcode c ∧ i.operands <+: [a, b] := by
  refine ⟨opcode_operands_of_decodeWith_eq_instr, ?_⟩
  rintro ⟨rfl, hops⟩
  exact decodeWith_opcode h hops

theorem decodeWith_eq_add_iff (h : c.Legal) (ir a b : Byte) :
    decodeWith c ir a b = .add a b ↔ c.addDispatch = true ∧ ir = c.opAdd := by
  constructor
  · intro hd
    obtain ⟨hdispatch, hir, _⟩ := dispatched_of_decodeWith_eq_add hd
    exact ⟨hdispatch, hir⟩
  · rintro ⟨hdispatch, rfl⟩
    exact decodeWith_opAdd h hdispatch a b

end

/-- Settles O1: each clause is the table's one equivalence, at an instruction whose operands are the bytes fetched. -/
theorem decodeMatchesWholeOpcodeByte : Obligations.DecodeMatchesWholeOpcodeByte := by
  intro c h ir a b
  have hrow (i : Instr) (hops : i.operands <+: [a, b]) : decodeWith c ir a b = .instr i ↔ ir = i.opcode c := by
    rw [decodeWith_eq_instr_iff h, and_iff_left hops]
  refine ⟨hrow .hlt ?_, hrow (.ldi a b) ?_, hrow (.prn a) ?_, hrow (.mul a b) ?_, hrow (.cmp a b) ?_,
    hrow (.jmp a) ?_, hrow (.jeq a) ?_, hrow (.jne a) ?_, decodeWith_eq_add_iff h ir a b,
    not_mem_opcodes_of_decodeWith_eq_unknown, Machine.decodeWith_of_not_mem a b⟩
  all_goals simp [Instr.operands]

/-! ## Length -/

/-- The shape of every instruction's bytes. -/
theorem encodingShape (i : Instr) : Laws.EncodingShape.Statement i := by
  cases i with
  | hlt => exact Laws.EncodingShape.hlt
  | ldi rd imm => exact Laws.EncodingShape.ldi rd imm
  | prn rs => exact Laws.EncodingShape.prn rs
  | mul rd rs => exact Laws.EncodingShape.mul rd rs
  | cmp ra rb => exact Laws.EncodingShape.cmp ra rb
  | jmp rt => exact Laws.EncodingShape.jmp rt
  | jeq rt => exact Laws.EncodingShape.jeq rt
  | jne rt => exact Laws.EncodingShape.jne rt

@[simp] theorem Decoded.length_instr (i : Instr) : (Decoded.instr i).length = 1 + i.operandCount := rfl

@[simp] theorem Decoded.length_add (rd rs : Byte) : (Decoded.add rd rs).length = 3 := rfl

@[simp] theorem Decoded.length_unknown (opcode : Byte) : (Decoded.unknown opcode).length = 1 := rfl

end Sys2Proof

namespace Sys2Proof.Machine

/-- A step that can fetch performs what its three bytes decode to (40_execution_cycle.md R91, R92). -/
theorem stepWith_of_fetchable {c : Config} {s : State} (hrun : s.run = .running) (hpc : s.pc + 2 < c.memSize) :
    stepWith c s = perform c
      (decodeWith c (s.mem.read s.pc) (s.mem.read (s.pc + 1)) (s.mem.read (s.pc + 2))) s := by
  simp [stepWith_running hrun, cycle, fetch_of_lt hpc]

/-- Settles O5: an instruction's length from the shape of its bytes; after an unknown byte the next fetch is at the
address one higher, by the unknown-opcode step's next state. -/
theorem lengthFollowsRowNotTopBits : Obligations.LengthFollowsRowNotTopBits := by
  refine ⟨fun c h ir a b => ⟨?instr, ?add, ?unknown, h.ff_not_mem_opcodes⟩, by decide⟩
  case instr =>
    intro i hd
    obtain ⟨rfl, _⟩ := opcode_operands_of_decodeWith_eq_instr hd
    obtain ⟨hbytes, hfield⟩ := encodingShape i c h
    simp [hd, hbytes, hfield]
  case add =>
    intro rd rs hd
    obtain ⟨hdispatch, rfl, _⟩ := dispatched_of_decodeWith_eq_add hd
    simp [hd, h.operandCountField_opAdd hdispatch]
  case unknown =>
    intro hir
    rw [decodeWith_of_not_mem a b hir]
    refine ⟨Decoded.length_unknown ir, fun hlenient s => ⟨_, execUnknown_of_lenient ir s hlenient, rfl, ?_⟩⟩
    intro hrun hpc
    exact stepWith_of_fetchable hrun (by simp; omega)

end Sys2Proof.Machine

/-! PROOFS. Where a step has a next state: everywhere in Running, nowhere else (spec/40_execution_cycle.md R90). -/

namespace Sys2Proof.Machine

/-! ## Every arm answers a next state -/

theorem exists_commit_eq_next (s : State) (r : Except CoreError State) : ∃ t, s.commit r = .next t := by
  rcases commit_eq_next s r with ⟨t, _, h⟩ | ⟨e, _, h⟩
  · exact ⟨t, h⟩
  · exact ⟨s.raise e, h⟩

/-- Every arm but HLT's ends in a commit, and a commit answers a next state whether the arm raised or not. -/
theorem exists_exec_eq_next (i : Instr) (s : State) : ∃ t, exec i s = .next t := by
  cases i with
  | hlt => exact ⟨_, exec_hlt s⟩
  | ldi rd imm => exact exists_commit_eq_next s _
  | prn rs => exact exists_commit_eq_next s _
  | mul rd rs => exact exists_commit_eq_next s (s.aluStep .mul rd rs)
  | cmp ra rb => exact exists_commit_eq_next s (s.aluStep .cmp ra rb)
  | jmp rt => exact exists_commit_eq_next s (s.takeJump rt)
  | jeq rt => exact exists_commit_eq_next s (s.jumpIf s.fl.equal rt)
  | jne rt => exact exists_commit_eq_next s (s.jumpIf (!s.fl.equal) rt)

theorem execUnknown_of_strict {c : Config} (opcode : Byte) (s : State) (h : c.strictUnknown = true) :
    execUnknown c opcode s = .next (s.raise (.unknownOpcode opcode s.pc)) := by
  simp [execUnknown, h]

theorem exists_perform_eq_next (c : Config) (d : Decoded) (s : State) : ∃ t, perform c d s = .next t := by
  cases d with
  | instr i => exact exists_exec_eq_next i s
  | add rd rs => exact exists_commit_eq_next s (s.aluStep .add rd rs)
  | unknown opcode =>
    cases hstrict : c.strictUnknown
    case false => exact ⟨_, execUnknown_of_lenient opcode s hstrict⟩
    case true => exact ⟨_, execUnknown_of_strict opcode s hstrict⟩

/-! ## The step and the run -/

theorem stepWith_of_unfetchable {c : Config} {s : State} (hrun : s.run = .running) (hpc : c.memSize ≤ s.pc + 2) :
    stepWith c s = .next (s.raise (.outOfBounds (max s.pc c.memSize))) := by
  simp [stepWith_running hrun, cycle, fetch_of_le hpc]

theorem exists_stepWith_eq_next {c : Config} {s : State} (hrun : s.run = .running) :
    ∃ t, stepWith c s = .next t := by
  rcases Nat.lt_or_ge (s.pc + 2) c.memSize with hpc | hpc
  · rw [stepWith_of_fetchable hrun hpc]
    exact exists_perform_eq_next c _ s
  · exact ⟨_, stepWith_of_unfetchable hrun hpc⟩

/-- Each terminal run state stops the step, with a fault of its own. -/
theorem exists_stepWith_eq_fault {c : Config} {s : State} (hrun : s.run ≠ .running) :
    ∃ r, stepWith c s = .fault r := by
  cases hs : s.run with
  | running => exact absurd hs hrun
  | halted => exact ⟨_, stepWith_halted hs⟩
  | faulted e => exact ⟨_, stepWith_faulted hs⟩

theorem run_eq_running_of_stepWith_eq_next {c : Config} {s t : State} (h : stepWith c s = .next t) :
    s.run = .running := by
  by_contra hrun
  obtain ⟨r, hfault⟩ := exists_stepWith_eq_fault (c := c) hrun
  cases h.symm.trans hfault

/-- A run stops where the step faults. -/
theorem runFor_of_fault {c : Config} {s : State} {r : Fault} (k : Nat) (h : stepWith c s = .fault r) :
    runFor c k s = s := by
  cases k with
  | zero => exact runFor_zero c s
  | succ k => simp [runFor, h]

/-- Settles O23: in Running every arm and both outcomes of the fetch answer a next state; elsewhere the step faults, so
a run of any length makes no step. -/
theorem stepDefinedExactlyInRunning : Obligations.StepDefinedExactlyInRunning := by
  intro c s
  refine ⟨⟨exists_stepWith_eq_next, ?_⟩, ?_⟩
  · rintro ⟨t, h⟩
    exact run_eq_running_of_stepWith_eq_next h
  · intro hrun k
    obtain ⟨r, hfault⟩ := exists_stepWith_eq_fault (c := c) hrun
    exact runFor_of_fault k hfault

end Sys2Proof.Machine

/-! PROOFS. The ALU and its instructions: what they write, what they leave, and which error they can raise
(spec/41_alu.md). -/

namespace Sys2Proof.Machine

section

variable {s t : State} {op : AluOp} {a b : Byte}

/-! ## The values the ALU computes -/

theorem mulMod256_toNat (a b : Byte) : (mulMod256 a b).toNat = a.toNat * b.toNat % 256 :=
  BitVec.toNat_ofNat (a.toNat * b.toNat) 8

/-- The three outcomes of a comparison are the trichotomy of the unsigned values. -/
theorem Flags.compare_cases (a b : Byte) :
    (a = b ∧ Flags.compare a b = ⟨true, false, false⟩) ∨
    (b.toNat < a.toNat ∧ Flags.compare a b = ⟨false, true, false⟩) ∨
    (a.toNat < b.toNat ∧ Flags.compare a b = ⟨false, false, true⟩) := by
  by_cases heq : a = b
  · exact .inl ⟨heq, by simp [Flags.compare, heq]⟩
  · have hne : a.toNat ≠ b.toNat := fun h => heq (BitVec.eq_of_toNat_eq h)
    rcases Nat.lt_or_gt_of_ne hne with hlt | hgt
    · exact .inr (.inr ⟨hlt, by simp [Flags.compare, heq, hlt.le]⟩)
    · exact .inr (.inl ⟨hgt, by simp [Flags.compare, heq, hgt]⟩)

theorem Flags.compare_eq_decide (a b : Byte) :
    Flags.compare a b = ⟨decide (a = b), decide (b.toNat < a.toNat), decide (a.toNat < b.toNat)⟩ := by
  rcases Flags.compare_cases a b with ⟨rfl, hf⟩ | ⟨hgt, hf⟩ | ⟨hlt, hf⟩
  · simp [hf]
  · have hne : a ≠ b := fun h => hgt.ne (h ▸ rfl)
    simp [hf, hne, hgt, hgt.le]
  · have hne : a ≠ b := fun h => hlt.ne (h ▸ rfl)
    simp [hf, hne, hlt, hlt.le]

theorem Flags.compare_equal_iff (a b : Byte) : (Flags.compare a b).equal = true ↔ a = b := by
  rw [Flags.compare_eq_decide, decide_eq_true_iff]

theorem Flags.compare_greater_iff (a b : Byte) : (Flags.compare a b).greater = true ↔ b.toNat < a.toNat := by
  rw [Flags.compare_eq_decide, decide_eq_true_iff]

theorem Flags.compare_less_iff (a b : Byte) : (Flags.compare a b).less = true ↔ a.toNat < b.toNat := by
  rw [Flags.compare_eq_decide, decide_eq_true_iff]

theorem Flags.count_compare (a b : Byte) : (Flags.compare a b).count = 1 := by
  rcases Flags.compare_cases a b with ⟨_, hf⟩ | ⟨_, hf⟩ | ⟨_, hf⟩ <;> rw [hf] <;> rfl

/-! ## The ALU and the step around it -/

/-- The ALU succeeds only where both of its indices name registers. -/
theorem lt_of_alu_eq_ok {x : RegFile} {fl : Flags} {r : RegFile × Flags} (h : alu op a b x fl = .ok r) :
    a.toNat < 8 ∧ b.toNat < 8 := by
  rcases Nat.lt_or_ge a.toNat 8 with ha | ha
  · rcases Nat.lt_or_ge b.toNat 8 with hb | hb
    · exact ⟨ha, hb⟩
    · cases (alu_of_le_right op x fl ha hb).symm.trans h
  · cases (alu_of_le_left op b x fl ha).symm.trans h

/-- The ALU's only error is InvalidRegister. -/
theorem eq_invalidRegister_of_alu_eq_error {x : RegFile} {fl : Flags} {e : CoreError}
    (h : alu op a b x fl = .error e) : ∃ i, e = .invalidRegister i := by
  rcases Nat.lt_or_ge a.toNat 8 with ha | ha
  · rcases Nat.lt_or_ge b.toNat 8 with hb | hb
    · cases (alu_of_lt op x fl ha hb).symm.trans h
    · cases (alu_of_le_right op x fl ha hb).symm.trans h; exact ⟨b, rfl⟩
  · cases (alu_of_le_left op b x fl ha).symm.trans h; exact ⟨a, rfl⟩

/-- An ALU instruction is the ALU, its results put back into the state, and `pc + 3`. -/
theorem aluStep_eq_map (s : State) (op : AluOp) (a b : Byte) :
    s.aluStep op a b = (alu op a b s.x s.fl).map fun r => { s with x := r.1, fl := r.2, pc := s.pc + 3 } := rfl

theorem aluStep_eq_ok_iff :
    s.aluStep op a b = .ok t ↔
      ∃ x fl, alu op a b s.x s.fl = .ok (x, fl) ∧ t = { s with x := x, fl := fl, pc := s.pc + 3 } := by
  rw [aluStep_eq_map]
  cases alu op a b s.x s.fl with
  | error e => simp [Except.map]
  | ok r => simp [Except.map, Prod.ext_iff, eq_comm]

/-- An ALU instruction raises for operand_a first. -/
theorem commit_aluStep_of_le_left (op : AluOp) (b : Byte) (s : State) (ha : 8 ≤ a.toNat) :
    s.commit (s.aluStep op a b) = .next (s.raise (.invalidRegister a)) := by
  rw [aluStep_eq_map, alu_of_le_left op b s.x s.fl ha]; rfl

/-- An ALU instruction raises for operand_b where operand_a names a register. -/
theorem commit_aluStep_of_le_right (op : AluOp) (s : State) (ha : a.toNat < 8) (hb : 8 ≤ b.toNat) :
    s.commit (s.aluStep op a b) = .next (s.raise (.invalidRegister b)) := by
  rw [aluStep_eq_map, alu_of_le_right op s.x s.fl ha hb]; rfl

end

/-- Settles O16: the ALU's value on two register indices, and the state an ALU instruction makes of it. -/
theorem aluTouchesOnlyRegistersOrFlags : Obligations.AluTouchesOnlyRegistersOrFlags := by
  refine ⟨?alu, ?aluStep⟩
  case alu =>
    intro op a b x x' fl fl' h
    obtain ⟨ha, hb⟩ := lt_of_alu_eq_ok h
    rw [alu_of_lt op x fl ha hb] at h
    refine ⟨ha, hb, ?_⟩
    cases op <;> cases h <;> simp
  case aluStep =>
    intro op a b s t h
    obtain ⟨x, fl, halu, rfl⟩ := aluStep_eq_ok_iff.1 h
    exact ⟨halu, rfl, rfl, rfl, rfl, rfl⟩

/-! ## MUL and CMP -/

theorem exec_mul_of_lt {rd rs : Byte} (s : State) (hd : rd.toNat < 8) (hs : rs.toNat < 8) :
    exec (.mul rd rs) s = .next
      { s with x := s.x.set rd.toNat (mulMod256 s.x[rd.toNat] s.x[rs.toNat]) hd, pc := s.pc + 3 } := by
  rw [exec, execMul, aluStep_eq_map, alu_of_lt .mul s.x s.fl hd hs]; rfl

theorem exec_cmp_of_lt {ra rb : Byte} (s : State) (ha : ra.toNat < 8) (hb : rb.toNat < 8) :
    exec (.cmp ra rb) s = .next
      { s with fl := Flags.compare s.x[ra.toNat] s.x[rb.toNat], pc := s.pc + 3 } := by
  rw [exec, execCmp, aluStep_eq_map, alu_of_lt .cmp s.x s.fl ha hb]; rfl

/-- Settles O8: the decoder's row for MUL and the arm's three answers. -/
theorem mulWritesProductMod256 : Obligations.MulWritesProductMod256 := by
  intro rd rs s
  refine ⟨?encoding, ?effect, ?badDestination, ?badSource⟩
  case encoding => exact fun c h => ⟨rfl, decodeWith_opcode h (i := .mul rd rs) (by simp [Instr.operands])⟩
  case effect => exact fun hd hs => ⟨_, mulMod256_toNat _ _, exec_mul_of_lt s hd hs⟩
  case badDestination => exact fun hd => ⟨_, commit_aluStep_of_le_left .mul rs s hd, rfl, rfl, rfl⟩
  case badSource => exact fun hd hs => ⟨_, commit_aluStep_of_le_right .mul s hd hs, rfl, rfl, rfl⟩

/-- Settles O9: the decoder's row for CMP, what each flag of a comparison means, and the arm's three answers. -/
theorem cmpSetsExactlyOneFlag : Obligations.CmpSetsExactlyOneFlag := by
  intro ra rb s
  refine ⟨?encoding, ?effect, ?badLeft, ?badRight⟩
  case encoding => exact fun c h => ⟨rfl, decodeWith_opcode h (i := .cmp ra rb) (by simp [Instr.operands])⟩
  case effect =>
    intro ha hb
    exact ⟨_, Flags.compare_equal_iff _ _, Flags.compare_greater_iff _ _, Flags.compare_less_iff _ _,
      Flags.count_compare _ _, exec_cmp_of_lt s ha hb⟩
  case badLeft => exact fun ha => ⟨_, commit_aluStep_of_le_left .cmp rb s ha, rfl, rfl⟩
  case badRight => exact fun ha hb => ⟨_, commit_aluStep_of_le_right .cmp s ha hb, rfl, rfl⟩

end Sys2Proof.Machine

/-! PROOFS. The run state after a step: as before, Halted, or Faulted by an error that the machine can raise;
UnsupportedAluOp is not among them (spec/41_alu.md R114). -/

namespace Sys2Proof.Machine

section

variable {c : Config} {s t : State}

/-! ## The arms that raise -/

theorem exec_ldi_of_le {rd : Byte} (imm : Byte) (s : State) (h : 8 ≤ rd.toNat) :
    exec (.ldi rd imm) s = .next (s.raise (.invalidRegister rd)) := by
  simp [exec, execLdi, h, bind, Except.bind]

theorem exec_prn_of_le {rs : Byte} (s : State) (h : 8 ≤ rs.toNat) :
    exec (.prn rs) s = .next (s.raise (.invalidRegister rs)) := by
  simp [exec, execPrn, h, bind, Except.bind]

theorem run_eq_or_raise_of_commit_aluStep {op : AluOp} {a b : Byte} (h : s.commit (s.aluStep op a b) = .next t) :
    t.run = s.run ∨ ∃ i, t = s.raise (.invalidRegister i) := by
  rcases aluStep_cases s op a b with ⟨_, _, hok⟩ | ⟨_, herr⟩ | ⟨_, _, herr⟩
  · rw [hok] at h; cases h; exact .inl (by cases op <;> rfl)
  · rw [herr] at h; cases h; exact .inr ⟨a, rfl⟩
  · rw [herr] at h; cases h; exact .inr ⟨b, rfl⟩

theorem run_eq_or_raise_of_commit_takeJump {rt : Byte} (h : s.commit (s.takeJump rt) = .next t) :
    t.run = s.run ∨ ∃ i, t = s.raise (.invalidRegister i) := by
  rcases takeJump_cases s rt with ⟨_, hok⟩ | ⟨_, herr⟩
  · rw [hok] at h; cases h; exact .inl rfl
  · rw [herr] at h; cases h; exact .inr ⟨rt, rfl⟩

theorem run_eq_or_raise_of_commit_jumpIf {taken : Bool} {rt : Byte} (h : s.commit (s.jumpIf taken rt) = .next t) :
    t.run = s.run ∨ ∃ i, t = s.raise (.invalidRegister i) := by
  cases taken with
  | false => cases h; exact .inl rfl
  | true => exact run_eq_or_raise_of_commit_takeJump h

/-- The run state after an instruction: HLT alone halts, and InvalidRegister alone is raised, with no other effect. -/
theorem run_of_exec_eq_next {i : Instr} (h : exec i s = .next t) :
    t.run = s.run ∨ (i = .hlt ∧ t.run = .halted) ∨ ∃ r, t = s.raise (.invalidRegister r) := by
  cases i with
  | hlt => cases h; exact .inr (.inl ⟨rfl, rfl⟩)
  | ldi rd imm =>
    rcases Nat.lt_or_ge rd.toNat 8 with hd | hd
    · cases (exec_ldi_of_lt imm s hd).symm.trans h; exact .inl rfl
    · cases (exec_ldi_of_le imm s hd).symm.trans h; exact .inr (.inr ⟨rd, rfl⟩)
  | prn rs =>
    rcases Nat.lt_or_ge rs.toNat 8 with hs | hs
    · cases (exec_prn_of_lt s hs).symm.trans h; exact .inl rfl
    · cases (exec_prn_of_le s hs).symm.trans h; exact .inr (.inr ⟨rs, rfl⟩)
  | mul rd rs => exact (run_eq_or_raise_of_commit_aluStep h).imp_right .inr
  | cmp ra rb => exact (run_eq_or_raise_of_commit_aluStep h).imp_right .inr
  | jmp rt => exact (run_eq_or_raise_of_commit_takeJump h).imp_right .inr
  | jeq rt => exact (run_eq_or_raise_of_commit_jumpIf h).imp_right .inr
  | jne rt => exact (run_eq_or_raise_of_commit_jumpIf h).imp_right .inr

/-! ## The step and the run -/

theorem run_of_perform_eq_next {d : Decoded} (h : perform c d s = .next t) :
    t.run = s.run ∨ (d = .instr .hlt ∧ t.run = .halted) ∨ ∃ e, t = s.raise e ∧ e ≠ .unsupportedAluOp := by
  cases d with
  | instr i =>
    rcases run_of_exec_eq_next h with hrun | ⟨rfl, hrun⟩ | ⟨r, rfl⟩
    · exact .inl hrun
    · exact .inr (.inl ⟨rfl, hrun⟩)
    · exact .inr (.inr ⟨_, rfl, nofun⟩)
  | add rd rs =>
    rcases run_eq_or_raise_of_commit_aluStep h with hrun | ⟨r, rfl⟩
    · exact .inl hrun
    · exact .inr (.inr ⟨_, rfl, nofun⟩)
  | unknown opcode =>
    cases hstrict : c.strictUnknown with
    | false => cases (execUnknown_of_lenient opcode s hstrict).symm.trans h; exact .inl rfl
    | true => cases (execUnknown_of_strict opcode s hstrict).symm.trans h; exact .inr (.inr ⟨_, rfl, nofun⟩)

/-- A step goes on, halts, or raises an error that is not UnsupportedAluOp and has no other effect. -/
theorem run_of_stepWith_eq_next (h : stepWith c s = .next t) :
    t.run = .running ∨ t.run = .halted ∨ ∃ e, t = s.raise e ∧ e ≠ .unsupportedAluOp := by
  have hrun := run_eq_running_of_stepWith_eq_next h
  rcases Nat.lt_or_ge (s.pc + 2) c.memSize with hpc | hpc
  · rw [stepWith_of_fetchable hrun hpc] at h
    exact (run_of_perform_eq_next h).imp hrun.subst (.imp_left And.right)
  · cases (stepWith_of_unfetchable hrun hpc).symm.trans h
    exact .inr (.inr ⟨_, rfl, nofun⟩)

/-- What every step keeps, a run of any length keeps. -/
theorem runFor_induction {P : State → Prop} (hstep : ∀ s t, stepWith c s = .next t → P s → P t) (k : Nat)
    (hs : P s) : P (runFor c k s) := by
  induction k generalizing s with
  | zero => exact hs
  | succ k ih =>
    by_cases hrun : s.run = .running
    · obtain ⟨t, h⟩ := exists_stepWith_eq_next (c := c) hrun
      rw [runFor_succ_of_next k h]
      exact ih (hstep s t h hs)
    · obtain ⟨r, h⟩ := exists_stepWith_eq_fault (c := c) hrun
      rw [runFor_of_fault (k + 1) h]
      exact hs

theorem run_ne_unsupportedAluOp_of_stepWith (h : stepWith c s = .next t) : t.run ≠ .faulted .unsupportedAluOp := by
  rcases run_of_stepWith_eq_next h with hrun | hrun | ⟨e, rfl, he⟩
  · simp [hrun]
  · simp [hrun]
  · simpa using he

end

/-- Settles O28: the ALU's only error is InvalidRegister, an error that a step raises is not UnsupportedAluOp, and a run is steps. -/
theorem unsupportedAluOpIsUnreachable : Obligations.UnsupportedAluOpIsUnreachable := by
  refine ⟨?alu, fun c s t => run_ne_unsupportedAluOp_of_stepWith, ?run⟩
  case alu =>
    intro op a b x fl h
    obtain ⟨i, hi⟩ := eq_invalidRegister_of_alu_eq_error h
    cases hi
  case run =>
    exact fun c k s hs => runFor_induction (fun _ _ h _ => run_ne_unsupportedAluOp_of_stepWith h) k hs

end Sys2Proof.Machine

/-! PROOFS. LDI and PRN: their encoding, their effect, and the exception of a byte that names no register
(spec/42_data_move_output.md R120, R121). -/

namespace Sys2Proof.Machine

/-- Settles O6: the decoder's row for LDI, and the arm's answer on each side of index 8. -/
theorem ldiLoadsImmediate : Obligations.LdiLoadsImmediate := by
  intro rd imm s
  refine ⟨?encoding, ?effect, ?badDestination⟩
  case encoding => exact fun c h => ⟨rfl, decodeWith_opcode h (i := .ldi rd imm) (by simp [Instr.operands])⟩
  case effect => exact exec_ldi_of_lt imm s
  case badDestination => exact fun hd => ⟨_, exec_ldi_of_le imm s hd, rfl, rfl, rfl⟩

/-- Settles O7: the decoder's row for PRN, which takes operand_a alone, and the arm's answer on each side of index 8. -/
theorem prnEmitsRegister : Obligations.PrnEmitsRegister := by
  intro rs s
  refine ⟨?encoding, ?effect, ?badSource⟩
  case encoding => exact fun c h b => ⟨rfl, decodeWith_opcode h (i := .prn rs) (by simp [Instr.operands])⟩
  case effect => exact exec_prn_of_lt s
  case badSource => exact fun hs => ⟨_, exec_prn_of_le s hs, rfl, rfl, rfl⟩

end Sys2Proof.Machine

/-! PROOFS. JMP: its encoding, its effect, and the exception of a byte that names no register
(spec/43_control_flow.md R130). -/

namespace Sys2Proof.Machine

theorem takeJump_of_le {rt : Byte} (s : State) (h : 8 ≤ rt.toNat) :
    s.takeJump rt = .error (.invalidRegister rt) := by
  rcases takeJump_cases s rt with ⟨hlt, _⟩ | ⟨_, herr⟩
  · omega
  · exact herr

theorem exec_jmp_of_le {rt : Byte} (s : State) (h : 8 ≤ rt.toNat) :
    exec (.jmp rt) s = .next (s.raise (.invalidRegister rt)) := by
  simp [exec, execJmp, takeJump_of_le s h]

/-- Settles O10: the decoder's row for JMP, which takes operand_a alone, and the arm's answer on each side of index 8. -/
theorem jmpReplacesPc : Obligations.JmpReplacesPc := by
  intro rt s
  refine ⟨?encoding, ?effect, ?badTarget⟩
  case encoding => exact fun c h b => ⟨rfl, decodeWith_opcode h (i := .jmp rt) (by simp [Instr.operands])⟩
  case effect => exact exec_jmp_of_lt s
  case badTarget => exact fun ht => ⟨_, exec_jmp_of_le s ht, rfl, rfl⟩

end Sys2Proof.Machine

/-! PROOFS. What memory reads after a write, and the launch state of an image
(spec/20_memory.md R51, R52; spec/70_reset_and_hazards.md R181). -/

namespace Sys2Proof.Machine

section

variable {c : Config} {m : Memory} {a : Nat}

/-! ## Reading after writing -/

theorem Memory.read_eq_unlisted (h : ∀ cell ∈ m, a < cell.1) : m.read a = Memory.unlisted := by
  induction m with
  | nil => rfl
  | cons cell m ih =>
    obtain ⟨hcell, hm⟩ := List.forall_mem_cons.1 h
    rw [Memory.read, if_neg hcell.ne', ih hm]

theorem Memory.read_write (hm : m.Pairwise fun p q => p.1 < q.1) (a : Nat) (v : Byte) (b : Nat) :
    (m.write a v).read b = if b = a then v else m.read b := by
  induction m with
  | nil => simp only [Memory.write]; split <;> simp_all [Memory.read, eq_comm]
  | cons cell m ih =>
    obtain ⟨k, w⟩ := cell
    obtain ⟨hfirst, htail⟩ := List.pairwise_cons.1 hm
    -- Writing 0x00 leaves no entry for `a` here; as addresses rise, no later entry names `a` either.
    have hunlisted (h : a ≤ k) : Memory.read m a = Memory.unlisted :=
      Memory.read_eq_unlisted fun q hq => h.trans_lt (hfirst q hq)
    simp only [Memory.write]
    rcases Nat.lt_trichotomy a k with hlt | rfl | hgt
    · have htail_a := hunlisted hlt.le
      rw [if_pos hlt]
      split <;> grind [Memory.read]
    · have htail_a := hunlisted le_rfl
      rw [if_neg (lt_irrefl a), if_pos rfl]
      split <;> grind [Memory.read]
    · rw [if_neg hgt.not_gt, if_neg hgt.ne']
      grind [Memory.read]

/-! ## The memory port inside [0, N) -/

theorem memRead_of_lt (m : Memory) (h : a < c.memSize) : memRead c m a = .ok (m.read a) := if_pos h

theorem memWrite_of_lt (m : Memory) (v : Byte) (h : a < c.memSize) : memWrite c m a v = .ok (m.write a v) := if_pos h

/-! ## Placing an image -/

theorem placeImage_cons_of_lt (m : Memory) (v : Byte) (bs : List Byte) (h : a < c.memSize) :
    placeImage c m a (v :: bs) = placeImage c (m.write a v) (a + 1) bs := by
  rw [placeImage, memWrite_of_lt m v h]; rfl

/-- An image that fits is placed: its own cells read as its bytes, and every other cell as before. -/
theorem placeImage_of_fits {bs : List Byte} (hm : m.Pairwise fun p q => p.1 < q.1)
    (hfits : a + bs.length ≤ c.memSize) :
    ∃ m', placeImage c m a bs = .ok m' ∧ (∀ (i : Nat) (h : i < bs.length), m'.read (a + i) = bs[i]) ∧
      ∀ b, b < a ∨ a + bs.length ≤ b → m'.read b = m.read b := by
  induction bs generalizing m a with
  | nil => exact ⟨m, rfl, nofun, fun _ _ => rfl⟩
  | cons v bs ih =>
    rw [List.length_cons] at hfits
    obtain ⟨m', hplace, hinside, houtside⟩ := ih (Memory.pairwise_write hm a v) (a := a + 1) (by omega)
    refine ⟨m', (placeImage_cons_of_lt m v bs (by omega)).trans hplace, fun i hi => ?_, fun b hb => ?_⟩
    · cases i with
      | zero => rw [Nat.add_zero, houtside a (.inl a.lt_succ_self), Memory.read_write hm, if_pos rfl]; rfl
      | succ i =>
        have hread := hinside i (Nat.lt_of_succ_lt_succ hi)
        rwa [Nat.add_right_comm] at hread
    · rw [List.length_cons] at hb
      rw [houtside b (by omega), Memory.read_write hm, if_neg (by omega)]

theorem load_of_placeImage_eq_ok {image : List Byte} (h : placeImage c State.reset.mem 0 image = .ok m) :
    load c image = .ok { State.reset with mem := m } := by
  rw [load, h]; rfl

theorem reset_x_eq_zero : ∀ (j : Nat) (hj : j < 8), State.reset.x[j] = 0x00 := by decide

end

/-- Settles O47: the image placed on reset's empty memory; every other field is reset's own. -/
theorem loadPlacesImage : Obligations.LoadPlacesImage := by
  intro c image hfits
  obtain ⟨m, hplace, hinside, houtside⟩ :=
    placeImage_of_fits (a := 0) (bs := image) reset_mem_wf.1 ((Nat.zero_add _).trans_le hfits)
  refine ⟨_, load_of_placeImage_eq_ok hplace, fun i hi => ?image, fun j hj hN => ?above, ?registers,
    rfl, rfl, rfl, rfl, rfl⟩
  case image => rw [memRead_of_lt m (hi.trans_le hfits), ← hinside i hi, Nat.zero_add]
  case above => rw [memRead_of_lt m hN, houtside j (.inr (by omega))]; rfl
  case registers => exact reset_x_eq_zero

end Sys2Proof.Machine

/-! PROOFS. Decoding and encoding are inverse to each other (spec/30_encoding.md sections 1 to 3). -/

namespace Sys2Proof

/-- A fetch at an encoded instruction sees its opcode, and its operands before anything that follows them. -/
theorem encodeWith_append_eq (c : Config) (i : Instr) (p q : Byte) (rest : List Byte) :
    ∃ a b tail, encodeWith c i ++ p :: q :: rest = i.opcode c :: a :: b :: tail ∧ i.operands <+: [a, b] := by
  cases i
  case hlt => exact ⟨_, _, _, rfl, List.nil_prefix⟩
  case ldi | mul | cmp => exact ⟨_, _, _, rfl, List.prefix_rfl⟩
  case prn | jmp | jeq | jne => exact ⟨_, _, _, rfl, List.prefix_append _ _⟩

/-- Settles O2: the fetched bytes are the opcode and the operands, and each legal opcode selects its own row. -/
theorem decodeOfEncodeIsIdentity : Obligations.DecodeOfEncodeIsIdentity := by
  intro c hlegal p q rest
  refine ⟨fun i => ?instr, fun hadd rd rs => ?add⟩
  case instr =>
    obtain ⟨a, b, tail, hbytes, hops⟩ := encodeWith_append_eq c i p q rest
    rw [hbytes, decodeBytes, decodeWith_opcode hlegal hops]
  case add =>
    exact congrArg some (decodeWith_opAdd hlegal hadd rd rs)

/-- Settles O3: the decoder takes the opcode and the operands from the bytes as they stand. -/
theorem encodeOfDecodeIsPrefix : Obligations.EncodeOfDecodeIsPrefix := by
  intro c ir a b
  refine ⟨fun i hd => ?instr, fun rd rs hd => ?add⟩
  case instr =>
    obtain ⟨rfl, hops⟩ := opcode_operands_of_decodeWith_eq_instr hd
    exact List.cons_prefix_cons.2 ⟨rfl, hops⟩
  case add =>
    obtain ⟨_, rfl, rfl, rfl⟩ := dispatched_of_decodeWith_eq_add hd
    rfl

/-- Settles O4: the default map is legal, so each word is its row's opcode and operands; 0xA0 is in no row. -/
theorem tableWordsDecode : Obligations.TableWordsDecode := by
  have hlegal : Config.standard.Legal := by decide
  have hrow (i : Instr) {a b : Byte} (hops : i.operands <+: [a, b]) :
      decode (i.opcode Config.standard) a b = .instr i := decodeWith_opcode hlegal hops
  refine ⟨hrow .hlt ?_, hrow (.ldi 0 42) ?_, hrow (.prn 3) ?_, hrow (.mul 4 5) ?_, hrow (.cmp 9 10) ?_,
    hrow (.jmp 2) ?_, hrow (.jeq 2) ?_, hrow (.jne 3) ?_, Machine.decodeWith_of_not_mem _ _ (by decide)⟩
  all_goals simp [Instr.operands]

end Sys2Proof

/-! PROOFS. The conditional jumps, taken and untaken; ADD; HLT and the unknown byte in a step
(spec/41_alu.md R111; spec/43_control_flow.md R131, R132; spec/44_system.md R140 to R142). -/

namespace Sys2Proof.Machine

section

variable {s : State}

/-! ## The arms, taken and untaken -/

theorem exec_jeq_of_equal (rt : Byte) (h : s.fl.equal = true) : exec (.jeq rt) s = exec (.jmp rt) s := by
  simp [exec, execJeq, execJmp, h]

theorem exec_jeq_of_not_equal (rt : Byte) (h : s.fl.equal = false) : exec (.jeq rt) s = .next (s.advance 2) := by
  simp [exec, execJeq, h]

theorem exec_jne_of_not_equal (rt : Byte) (h : s.fl.equal = false) : exec (.jne rt) s = exec (.jmp rt) s := by
  simp [exec, execJne, execJmp, h]

theorem exec_jne_of_equal (rt : Byte) (h : s.fl.equal = true) : exec (.jne rt) s = .next (s.advance 2) := by
  simp [exec, execJne, h]

theorem addMod256_toNat (a b : Byte) : (addMod256 a b).toNat = (a.toNat + b.toNat) % 256 :=
  BitVec.toNat_ofNat (a.toNat + b.toNat) 8

theorem execAdd_of_lt {rd rs : Byte} (s : State) (hd : rd.toNat < 8) (hs : rs.toNat < 8) :
    execAdd rd rs s = .next
      { s with x := s.x.set rd.toNat (addMod256 s.x[rd.toNat] s.x[rs.toNat]) hd, pc := s.pc + 3 } := by
  rw [execAdd, aluStep_eq_map, alu_of_lt .add s.x s.fl hd hs]; rfl

end

/-- Settles O11: the taken jump is JMP; the untaken one reads no register. -/
theorem jeqTakenIffEqual : Obligations.JeqTakenIffEqual := by
  intro rt s
  refine ⟨?encoding, fun hE => ⟨fun h => ?taken, fun h => ?badTarget⟩, exec_jeq_of_not_equal rt⟩
  case encoding => exact fun c h b => ⟨rfl, decodeWith_opcode h (i := .jeq rt) (by simp [Instr.operands])⟩
  case taken => exact (exec_jeq_of_equal rt hE).trans (exec_jmp_of_lt s h)
  case badTarget => exact (exec_jeq_of_equal rt hE).trans (exec_jmp_of_le s h)

/-- Settles O12: as O11, with the test reversed. -/
theorem jneTakenIffNotEqual : Obligations.JneTakenIffNotEqual := by
  intro rt s
  refine ⟨?encoding, fun hE => ⟨fun h => ?taken, fun h => ?badTarget⟩, exec_jne_of_equal rt⟩
  case encoding => exact fun c h b => ⟨rfl, decodeWith_opcode h (i := .jne rt) (by simp [Instr.operands])⟩
  case taken => exact (exec_jne_of_not_equal rt hE).trans (exec_jmp_of_lt s h)
  case badTarget => exact (exec_jne_of_not_equal rt hE).trans (exec_jmp_of_le s h)

/-- Settles O15: the ALU's value and its state on valid indices, and a raise for the first index that is not. -/
theorem addWritesSumMod256 : Obligations.AddWritesSumMod256 := by
  intro rd rs s
  refine ⟨fun c h hadd => decodeWith_opAdd h hadd rd rs, fun hd hs => ?effect, ?badDestination, ?badSource⟩
  case effect => exact ⟨_, addMod256_toNat _ _, alu_of_lt .add s.x s.fl hd hs, execAdd_of_lt s hd hs⟩
  case badDestination => exact commit_aluStep_of_le_left .add rs s
  case badSource => exact commit_aluStep_of_le_right .add s

/-! ## HLT and the unknown byte in a step -/

/-- Settles O13: the last clause is the fetch's, which fails before HLT is decoded. -/
theorem hltHalts : Obligations.HltHalts := by
  refine ⟨fun c h a b => ⟨rfl, decodeWith_opcode h (i := .hlt) (by simp [Instr.operands])⟩, exec_hlt, ?unfetchable⟩
  intro c s hrun _ hpc hN
  rw [stepWith_of_unfetchable hrun hN, Nat.max_eq_right hpc.le]

/-- Settles O24: the step's equation where it can fetch. -/
theorem stepRunsDecodedInstruction : Obligations.StepRunsDecodedInstruction := by
  refine ⟨fun c s => stepWith_of_fetchable, fun i s hrun hpc hd => ?_⟩
  rw [step, stepWith_of_fetchable hrun hpc, ← decode, hd, perform_instr]

/-- Settles O25: the step's equation where it cannot fetch. -/
theorem fetchBeyondMemoryRaises : Obligations.FetchBeyondMemoryRaises := fun _ _ => stepWith_of_unfetchable

/-- Settles O14: a byte in no row decodes as unknown, and the configuration says which of the two steps follows. -/
theorem unknownOpcodeIsReportedAndSkipped : Obligations.UnknownOpcodeIsReportedAndSkipped := by
  intro c s hrun hpc hbyte
  rw [stepWith_of_fetchable hrun hpc, decodeWith_of_not_mem _ _ hbyte, perform_unknown]
  exact ⟨execUnknown_of_lenient _ s, execUnknown_of_strict _ s⟩

/-- Settles O31: each of the three is the taken jump, whose target the next fetch finds outside memory. -/
theorem badTargetFaultsAtNextStep : Obligations.BadTargetFaultsAtNextStep := by
  intro c i rt s h hrun hi hN
  refine ⟨s.jumpTo s.x[rt.toNat], ?_, hrun, stepWith_of_unfetchable hrun hN⟩
  rw [← exec_jmp_of_lt s h]
  rcases hi with rfl | ⟨rfl, hE⟩ | ⟨rfl, hE⟩
  · rfl
  · exact exec_jeq_of_equal rt hE
  · exact exec_jne_of_not_equal rt hE

end Sys2Proof.Machine

/-! PROOFS. The effect of a step, said once: what it writes and what it appends, as far as it depends on nothing but the
state it reads. Every rule about one step, two steps or a run follows from it
(spec/10_state.md R20 to R35; spec/40_execution_cycle.md R92, R93). -/

namespace Sys2Proof

/-! ## What a decoded form reads, writes and takes as operands -/

/-- R24, column "Reads", with ADD's row and the unknown byte's. -/
def Decoded.regsRead (f : Machine.Flags) : Decoded → List Byte
  | .instr i => Machine.regsRead f i
  | .add rd rs => [rd, rs]
  | .unknown _ => []

/-- R24, column "Writes", with ADD's row and the unknown byte's. -/
def Decoded.regsWritten : Decoded → List Byte
  | .instr i => Machine.regsWritten i
  | .add rd _ => [rd]
  | .unknown _ => []

/-- The operand bytes, operand_a first. -/
def Decoded.operands : Decoded → List Byte
  | .instr i => i.operands
  | .add rd rs => [rd, rs]
  | .unknown _ => []

/-- The first operand byte that names no register: the one whose access raises (60_exceptions.md R152, D18). -/
def firstNonRegister (operands : List Byte) : Option Byte := operands.find? fun b => !isRegister b

theorem firstNonRegister_cons_of_le {a : Byte} (rest : List Byte) (h : 8 ≤ a.toNat) :
    firstNonRegister (a :: rest) = some a := by
  simp [firstNonRegister, isRegister, h]

theorem firstNonRegister_cons_of_lt {a : Byte} (rest : List Byte) (h : a.toNat < 8) :
    firstNonRegister (a :: rest) = firstNonRegister rest := by
  simp [firstNonRegister, isRegister, h]

end Sys2Proof

namespace Sys2Proof.Machine

/-! ## Effects -/

/-- What a step does: the register and the fields it overwrites, if any, the new pc, and what it appends to the traces.
No field of it is memory. -/
structure Effect where
  reg : Option (Fin 8 × Byte) := none
  fl : Option Flags := none
  pc : Nat
  run : Option RunState := none
  out : List Byte := []
  diag : List DiagRecord := []

/-- The register file with at most one register overwritten. -/
def RegFile.overwrite (x : RegFile) : Option (Fin 8 × Byte) → RegFile
  | none => x
  | some (j, v) => x.set j v

def Effect.apply (e : Effect) (s : State) : State where
  mem := s.mem
  x := s.x.overwrite e.reg
  fl := e.fl.getD s.fl
  pc := e.pc
  run := e.run.getD s.run
  out := s.out ++ e.out
  diag := s.diag ++ e.diag

/-- Taking an error at `pc` (R93). -/
def Effect.raise (pc : Nat) (err : CoreError) : Effect := { pc := pc, run := some (.faulted err) }

theorem Effect.raise_apply (err : CoreError) (s : State) : (Effect.raise s.pc err).apply s = s.raise err := by
  simp [Effect.raise, Effect.apply, RegFile.overwrite, State.raise]

theorem RegFile.overwrite_getElem_of_eq {x : RegFile} {j : Fin 8} {v : Byte} {k : Nat} (hk : k < 8) (h : j.val = k) :
    (x.overwrite (some (j, v)))[k] = v := by
  subst h; simp [RegFile.overwrite]

theorem RegFile.overwrite_getElem_of_ne {x : RegFile} {w : Option (Fin 8 × Byte)} {k : Nat} (hk : k < 8)
    (h : ∀ p ∈ w, p.1.val ≠ k) : (x.overwrite w)[k] = x[k] := by
  cases w with
  | none => rfl
  | some p => exact Vector.getElem_set_ne p.1.isLt hk (h p rfl)

/-! ## Which effects the rules allow -/

/-- What a decoded form at `pc` can raise: UnknownOpcode in the strict form, else InvalidRegister of its first operand
that names no register. -/
inductive RaiseCause (c : Config) (pc : Nat) : Decoded → CoreError → Prop
  | strict (b : Byte) (h : c.strictUnknown = true) : RaiseCause c pc (.unknown b) (.unknownOpcode b pc)
  | operand {d : Decoded} {r : Byte} (h : firstNonRegister d.operands = some r) :
      RaiseCause c pc d (.invalidRegister r)

/-- What a decoded form at `addr` does where it raises nothing. -/
structure Effect.Completes (d : Decoded) (addr : Nat) (e : Effect) : Prop where
  reg : e.reg.toList.map (fun w => w.1.val) = d.regsWritten.map BitVec.toNat
  fl : e.fl = none ∨ ∃ ra rb a b, d = .instr (.cmp ra rb) ∧ e.fl = some (Flags.compare a b)
  pc : e.pc ≤ addr + 3 ∨ e.pc ≤ 255
  run : e.run = none ∨ d = .instr .hlt ∧ e.run = some .halted ∧ e.pc = addr + 1
  out : e.out = [] ∨ ∃ rs v, d = .instr (.prn rs) ∧ e.out = [v]
  diag : e.diag = [] ∨ ∃ b, d = .unknown b ∧ e.diag = [⟨b, addr⟩]

/-- All or nothing (R93, D6): a decoded form completes, or it raises and does nothing else. -/
inductive EffectOf (c : Config) (d : Decoded) (pc : Nat) : Effect → Prop
  | raise {err : CoreError} (h : RaiseCause c pc d err) : EffectOf c d pc (Effect.raise pc err)
  | complete {e : Effect} (h : e.Completes d pc) : EffectOf c d pc e

/-- `u` is like `s` in all that the decoded form reads. -/
structure ReadsAlike (d : Decoded) (s u : State) : Prop where
  pc : u.pc = s.pc
  equal : u.fl.equal = s.fl.equal
  reg : ∀ r ∈ d.regsRead s.fl, ∀ h : r.toNat < 8, u.x[r.toNat] = s.x[r.toNat]

theorem ReadsAlike.refl (d : Decoded) (s : State) : ReadsAlike d s s := ⟨rfl, rfl, fun _ _ _ => rfl⟩

/-- One allowed effect is what the decoded form does in `s` and in every state like it. -/
def HasEffect (c : Config) (d : Decoded) (s : State) : Prop :=
  ∃ e, EffectOf c d s.pc e ∧ ∀ u, ReadsAlike d s u → perform c d u = .next (e.apply u)

/-! ## Every decoded form has an effect -/

section

variable {c : Config} {d : Decoded} {s : State}

theorem HasEffect.of_raise {err : CoreError} (hcause : RaiseCause c s.pc d err)
    (h : ∀ u, ReadsAlike d s u → perform c d u = .next (u.raise err)) : HasEffect c d s :=
  ⟨_, .raise hcause, fun u hu => by rw [h u hu, ← hu.pc, Effect.raise_apply]⟩

theorem HasEffect.of_advance (n : Nat) (hn : n ≤ 3) (hwrites : d.regsWritten = [])
    (h : ∀ u, ReadsAlike d s u → perform c d u = .next (u.advance n)) : HasEffect c d s := by
  refine ⟨{ pc := s.pc + n }, .complete ⟨by simp [hwrites], .inl rfl, .inl (by simpa), .inl rfl, .inl rfl, .inl rfl⟩,
    fun u hu => ?_⟩
  rw [h u hu]
  simp [Effect.apply, RegFile.overwrite, State.advance, hu.pc]

/-- The taken jump, of all three mnemonics. -/
theorem HasEffect.of_jmp {rt : Byte} (hops : d.operands = [rt]) (hreads : rt ∈ d.regsRead s.fl)
    (hwrites : d.regsWritten = []) (h : ∀ u, ReadsAlike d s u → perform c d u = exec (.jmp rt) u) :
    HasEffect c d s := by
  rcases Nat.lt_or_ge rt.toNat 8 with ht | ht
  · refine ⟨{ pc := s.x[rt.toNat].toNat }, .complete ⟨by simp [hwrites], .inl rfl, .inr ?_, .inl rfl, .inl rfl, .inl rfl⟩,
      fun u hu => ?_⟩
    · exact Nat.le_of_lt_succ s.x[rt.toNat].isLt
    · rw [h u hu, exec_jmp_of_lt u ht, hu.reg rt hreads ht]
      simp [Effect.apply, RegFile.overwrite, State.jumpTo]
  · exact .of_raise (.operand (by rw [hops, firstNonRegister_cons_of_le _ ht])) fun u hu =>
      (h u hu).trans (exec_jmp_of_le u ht)

/-- An ALU instruction raises for its first bad operand; the two valid indices are left to show. -/
theorem HasEffect.of_alu {op : AluOp} {a b : Byte} (hops : d.operands = [a, b])
    (h : ∀ u, perform c d u = u.commit (u.aluStep op a b))
    (hvalid : a.toNat < 8 → b.toNat < 8 → HasEffect c d s) : HasEffect c d s := by
  rcases Nat.lt_or_ge a.toNat 8 with ha | ha
  · rcases Nat.lt_or_ge b.toNat 8 with hb | hb
    · exact hvalid ha hb
    · refine .of_raise (.operand (r := b) ?_) fun u _ => (h u).trans (commit_aluStep_of_le_right op u ha hb)
      rw [hops, firstNonRegister_cons_of_lt _ ha, firstNonRegister_cons_of_le _ hb]
  · refine .of_raise (.operand (r := a) ?_) fun u _ => (h u).trans (commit_aluStep_of_le_left op b u ha)
    rw [hops, firstNonRegister_cons_of_le _ ha]

/-- An effect that writes one register and advances the pc by 3: LDI, MUL and ADD. -/
theorem HasEffect.of_write {rd : Byte} (v : Byte) (hd : rd.toNat < 8) (hwrites : d.regsWritten = [rd])
    (h : ∀ u, ReadsAlike d s u →
      perform c d u = .next { u with x := u.x.set rd.toNat v hd, pc := u.pc + 3 }) : HasEffect c d s := by
  refine ⟨{ reg := some (⟨rd.toNat, hd⟩, v), pc := s.pc + 3 },
    .complete ⟨by simp [hwrites], .inl rfl, .inl le_rfl, .inl rfl, .inl rfl, .inl rfl⟩, fun u hu => ?_⟩
  rw [h u hu]
  simp [Effect.apply, RegFile.overwrite, hu.pc]

/-- Every instruction of the table has an effect, whatever its operands. -/
theorem hasEffect_instr (c : Config) (i : Instr) (s : State) : HasEffect c (.instr i) s := by
  cases i with
  | hlt =>
    refine ⟨{ pc := s.pc + 1, run := some .halted },
      .complete ⟨rfl, .inl rfl, .inl (by simp), .inr ⟨rfl, rfl, rfl⟩, .inl rfl, .inl rfl⟩, fun u hu => ?_⟩
    simp [exec_hlt, Effect.apply, RegFile.overwrite, State.advance, hu.pc]
  | ldi rd imm =>
    rcases Nat.lt_or_ge rd.toNat 8 with hd | hd
    · exact .of_write imm hd rfl fun u _ => exec_ldi_of_lt imm u hd
    · exact .of_raise (.operand (firstNonRegister_cons_of_le _ hd)) fun u _ => exec_ldi_of_le imm u hd
  | prn rs =>
    rcases Nat.lt_or_ge rs.toNat 8 with hs | hs
    · refine ⟨{ pc := s.pc + 2, out := [s.x[rs.toNat]] },
        .complete ⟨rfl, .inl rfl, .inl (by simp), .inl rfl, .inr ⟨rs, _, rfl, rfl⟩, .inl rfl⟩, fun u hu => ?_⟩
      rw [perform_instr, exec_prn_of_lt u hs, hu.reg rs (by simp [Decoded.regsRead, regsRead]) hs]
      simp [Effect.apply, RegFile.overwrite, State.advance, State.emit, hu.pc]
    · exact .of_raise (.operand (firstNonRegister_cons_of_le _ hs)) fun u _ => exec_prn_of_le u hs
  | mul rd rs =>
    refine .of_alu rfl (fun _ => rfl) fun hd hs =>
      .of_write (mulMod256 s.x[rd.toNat] s.x[rs.toNat]) hd rfl fun u hu => ?_
    rw [perform_instr, exec_mul_of_lt u hd hs, hu.reg rd (by simp [Decoded.regsRead, regsRead]) hd,
      hu.reg rs (by simp [Decoded.regsRead, regsRead]) hs]
  | cmp ra rb =>
    refine .of_alu rfl (fun _ => rfl) fun ha hb => ?_
    refine ⟨{ fl := some (Flags.compare s.x[ra.toNat] s.x[rb.toNat]), pc := s.pc + 3 },
      .complete ⟨rfl, .inr ⟨ra, rb, _, _, rfl, rfl⟩, .inl le_rfl, .inl rfl, .inl rfl, .inl rfl⟩, fun u hu => ?_⟩
    rw [perform_instr, exec_cmp_of_lt u ha hb, hu.reg ra (by simp [Decoded.regsRead, regsRead]) ha,
      hu.reg rb (by simp [Decoded.regsRead, regsRead]) hb]
    simp [Effect.apply, RegFile.overwrite, hu.pc]
  | jmp rt => exact .of_jmp rfl (by simp [Decoded.regsRead, regsRead]) rfl fun _ _ => rfl
  | jeq rt =>
    cases hE : s.fl.equal with
    | true =>
      exact .of_jmp rfl (by simp [Decoded.regsRead, regsRead, hE]) rfl fun u hu =>
        exec_jeq_of_equal rt (hu.equal.trans hE)
    | false => exact .of_advance 2 (by simp) rfl fun u hu => exec_jeq_of_not_equal rt (hu.equal.trans hE)
  | jne rt =>
    cases hE : s.fl.equal with
    | true => exact .of_advance 2 (by simp) rfl fun u hu => exec_jne_of_equal rt (hu.equal.trans hE)
    | false =>
      exact .of_jmp rfl (by simp [Decoded.regsRead, regsRead, hE]) rfl fun u hu =>
        exec_jne_of_not_equal rt (hu.equal.trans hE)

theorem hasEffect (c : Config) (d : Decoded) (s : State) : HasEffect c d s := by
  cases d with
  | instr i => exact hasEffect_instr c i s
  | add rd rs =>
    refine .of_alu rfl (fun _ => rfl) fun hd hs =>
      .of_write (addMod256 s.x[rd.toNat] s.x[rs.toNat]) hd rfl fun u hu => ?_
    rw [perform_add, execAdd_of_lt u hd hs, hu.reg rd (by simp [Decoded.regsRead]) hd,
      hu.reg rs (by simp [Decoded.regsRead]) hs]
  | unknown b =>
    cases hstrict : c.strictUnknown with
    | true =>
      refine .of_raise (.strict b hstrict) fun u hu => ?_
      rw [perform_unknown, execUnknown_of_strict b u hstrict, hu.pc]
    | false =>
      refine ⟨{ pc := s.pc + 1, diag := [⟨b, s.pc⟩] },
        .complete ⟨rfl, .inl rfl, .inl (by simp), .inl rfl, .inl rfl, .inr ⟨b, rfl, rfl⟩⟩, fun u hu => ?_⟩
      rw [perform_unknown, execUnknown_of_lenient b u hstrict]
      simp [Effect.apply, RegFile.overwrite, State.advance, State.report, hu.pc]

/-- What was performed, as an effect. -/
theorem exists_effect_of_perform {t : State} (h : perform c d s = .next t) :
    ∃ e, EffectOf c d s.pc e ∧ t = e.apply s ∧ ∀ u, ReadsAlike d s u → perform c d u = .next (e.apply u) := by
  obtain ⟨e, he, hperform⟩ := hasEffect c d s
  cases h.symm.trans (hperform s (.refl d s))
  exact ⟨e, he, rfl, hperform⟩

end

/-! ## The effect of a step -/

/-- What the three bytes at the pc decode to. -/
def decodedAt (c : Config) (s : State) : Decoded :=
  decodeWith c (s.mem.read s.pc) (s.mem.read (s.pc + 1)) (s.mem.read (s.pc + 2))

/-- The effects of a step of a Running machine: the fetch's error, or what was decoded. -/
inductive StepEffect (c : Config) (s : State) : Effect → Prop
  | unfetchable (hpc : c.memSize ≤ s.pc + 2) :
      StepEffect c s (Effect.raise s.pc (.outOfBounds (max s.pc c.memSize)))
  | performed {e : Effect} (hpc : s.pc + 2 < c.memSize) (h : EffectOf c (decodedAt c s) s.pc e) : StepEffect c s e

/-- `u` is like `s` in all that a step reads. -/
structure StepReadsAlike (s u : State) : Prop where
  run : u.run = s.run
  pc : u.pc = s.pc
  equal : u.fl.equal = s.fl.equal
  x : u.x = s.x
  cells : ∀ k, k ≤ 2 → u.mem.read (s.pc + k) = s.mem.read (s.pc + k)

section

variable {c : Config} {s t u : State}

theorem StepReadsAlike.readsAlike (h : StepReadsAlike s u) (d : Decoded) : ReadsAlike d s u :=
  ⟨h.pc, h.equal, fun _ _ _ => by simp only [h.x]⟩

theorem StepReadsAlike.decodedAt_eq (h : StepReadsAlike s u) (c : Config) : decodedAt c u = decodedAt c s := by
  have hir := h.cells 0 (by omega)
  rw [Nat.add_zero] at hir
  rw [decodedAt, h.pc, hir, h.cells 1 (by omega), h.cells 2 le_rfl, decodedAt]

/-- What a step did, as an effect: any state that is like this one in all that a step reads does the same. -/
theorem exists_effect_of_stepWith (h : stepWith c s = .next t) :
    ∃ e, StepEffect c s e ∧ t = e.apply s ∧ ∀ u, StepReadsAlike s u → stepWith c u = .next (e.apply u) := by
  have hrun := run_eq_running_of_stepWith_eq_next h
  rcases Nat.lt_or_ge (s.pc + 2) c.memSize with hpc | hpc
  · rw [stepWith_of_fetchable hrun hpc, ← decodedAt] at h
    obtain ⟨e, he, ht, hperform⟩ := exists_effect_of_perform h
    refine ⟨e, .performed hpc he, ht, fun u hu => ?_⟩
    rw [stepWith_of_fetchable (hu.run.trans hrun) (hu.pc ▸ hpc), ← decodedAt, hu.decodedAt_eq]
    exact hperform u (hu.readsAlike _)
  · cases (stepWith_of_unfetchable hrun hpc).symm.trans h
    refine ⟨_, .unfetchable hpc, (Effect.raise_apply _ s).symm, fun u hu => ?_⟩
    rw [stepWith_of_unfetchable (hu.run.trans hrun) (hu.pc ▸ hpc), ← hu.pc, Effect.raise_apply]

theorem StepEffect.fl {e : Effect} (h : StepEffect c s e) :
    e.fl = none ∨ s.mem.read s.pc = c.opCmp ∧ ∃ a b, e.fl = some (Flags.compare a b) := by
  rcases h with _ | ⟨_, _ | hcomplete⟩
  · exact .inl rfl
  · exact .inl rfl
  · refine hcomplete.fl.imp_right ?_
    rintro ⟨ra, rb, a, b, hd, hfl⟩
    exact ⟨(opcode_operands_of_decodeWith_eq_instr hd).1, a, b, hfl⟩

end

end Sys2Proof.Machine

/-! PROOFS. The rules about one step, from the effect of a step: frames, causes of a raise, what a step reads
(spec/10_state.md R22 to R36; spec/40_execution_cycle.md R93, R97; spec/60_exceptions.md section 1). -/

namespace Sys2Proof.Machine

section

variable {c : Config} {d : Decoded} {s t : State} {e : Effect} {addr : Nat}

/-! ## The fields after an effect -/

@[simp] theorem Effect.apply_mem (e : Effect) (s : State) : (e.apply s).mem = s.mem := rfl
@[simp] theorem Effect.apply_x (e : Effect) (s : State) : (e.apply s).x = s.x.overwrite e.reg := rfl
@[simp] theorem Effect.apply_fl (e : Effect) (s : State) : (e.apply s).fl = e.fl.getD s.fl := rfl
@[simp] theorem Effect.apply_pc (e : Effect) (s : State) : (e.apply s).pc = e.pc := rfl
@[simp] theorem Effect.apply_run (e : Effect) (s : State) : (e.apply s).run = e.run.getD s.run := rfl
@[simp] theorem Effect.apply_out (e : Effect) (s : State) : (e.apply s).out = s.out ++ e.out := rfl
@[simp] theorem Effect.apply_diag (e : Effect) (s : State) : (e.apply s).diag = s.diag ++ e.diag := rfl

@[simp] theorem RegFile.overwrite_none (x : RegFile) : x.overwrite none = x := rfl

/-- A completed form overwrites exactly the register it writes. -/
theorem Effect.Completes.exists_reg_iff (h : e.Completes d addr) (j : Nat) :
    (∃ p ∈ e.reg, p.1.val = j) ↔ ∃ r ∈ d.regsWritten, r.toNat = j := by
  have hmem := congrArg (j ∈ ·) h.reg
  simpa using hmem

theorem Effect.Completes.reg_eq_none (h : e.Completes d addr) (hwrites : d.regsWritten = []) : e.reg = none := by
  simpa [hwrites] using h.reg

/-- Only HLT sets the run state without raising. -/
theorem Effect.Completes.run_eq_none (h : e.Completes d addr) (hd : d ≠ .instr .hlt) : e.run = none :=
  h.run.resolve_right fun ⟨hhlt, _⟩ => hd hhlt

theorem raise_or_completes_of_perform (h : perform c d s = .next t) :
    (∃ err, t = s.raise err) ∨ ∃ e : Effect, e.Completes d s.pc ∧ t = e.apply s := by
  obtain ⟨e, _ | hcomplete, rfl, _⟩ := exists_effect_of_perform h
  · exact .inl ⟨_, Effect.raise_apply _ s⟩
  · exact .inr ⟨e, hcomplete, rfl⟩

end

/-! ## Frames -/

/-- The three forms that write a register. -/
def IsRegisterWrite (rd : Byte) (d : Decoded) : Prop :=
  (∃ imm, d = .instr (.ldi rd imm)) ∨ (∃ rs, d = .instr (.mul rd rs)) ∨ ∃ rs, d = .add rd rs

/-- A form that writes a register and completes touches nothing else but the pc. -/
theorem Effect.Completes.of_isRegisterWrite {rd : Byte} {d : Decoded} {e : Effect} {addr : Nat}
    (h : e.Completes d addr) (hd : IsRegisterWrite rd d) :
    (∀ p ∈ e.reg, p.1.val = rd.toNat) ∧ e.fl = none ∧ e.run = none ∧ e.out = [] ∧ e.diag = [] := by
  refine ⟨fun p hp => ?reg, ?others⟩
  case reg =>
    have hwrites : d.regsWritten = [rd] := by rcases hd with ⟨_, rfl⟩ | ⟨_, rfl⟩ | ⟨_, rfl⟩ <;> rfl
    obtain ⟨r, hr, hrp⟩ := (h.exists_reg_iff _).1 ⟨p, hp, rfl⟩
    rw [hwrites, List.mem_singleton] at hr
    exact hr ▸ hrp.symm
  case others =>
    rcases hd with ⟨_, rfl⟩ | ⟨_, rfl⟩ | ⟨_, rfl⟩ <;>
      exact ⟨by simpa using h.fl, h.run_eq_none nofun, by simpa using h.out, by simpa using h.diag⟩

/-- Settles O18: an effect on one register, or a raise. -/
theorem registerWriteFrame : Obligations.RegisterWriteFrame := by
  intro rd s t h
  obtain ⟨d, hd, hperform⟩ : ∃ d, IsRegisterWrite rd d ∧ perform Config.standard d s = .next t := by
    rcases h with ⟨imm, h⟩ | ⟨rs, h⟩ | ⟨rs, h⟩
    · exact ⟨_, .inl ⟨imm, rfl⟩, h⟩
    · exact ⟨_, .inr (.inl ⟨rs, rfl⟩), h⟩
    · exact ⟨_, .inr (.inr ⟨rs, rfl⟩), h⟩
  rcases raise_or_completes_of_perform hperform with ⟨err, rfl⟩ | ⟨e, he, rfl⟩
  · exact ⟨fun _ _ _ => rfl, rfl, rfl, rfl, fun _ => rfl, .inr ⟨err, rfl, rfl, rfl⟩⟩
  · obtain ⟨hreg, hfl, hrun, hout, hdiag⟩ := he.of_isRegisterWrite hd
    refine ⟨fun j hj hne => ?_, by simp [hfl], by simp [hout], by simp [hdiag], fun _ => rfl, .inl (by simp [hrun])⟩
    exact RegFile.overwrite_getElem_of_ne hj fun p hp hpj => hne (hpj.symm.trans (hreg p hp))

/-- Settles O19: CMP writes no register and appends nothing; a raise keeps the flags too. -/
theorem compareFrame : Obligations.CompareFrame := by
  intro ra rb s t h
  rcases raise_or_completes_of_perform (c := Config.standard) (d := .instr (.cmp ra rb)) h with
    ⟨err, rfl⟩ | ⟨e, he, rfl⟩
  · exact ⟨rfl, rfl, rfl, fun _ => rfl, .inr ⟨err, rfl, rfl, rfl⟩⟩
  · have hout : e.out = [] := by simpa using he.out
    have hdiag : e.diag = [] := by simpa using he.diag
    simp [he.reg_eq_none rfl, he.run_eq_none nofun, hout, hdiag]

/-- Settles O20: PRN's one effect beside the pc is the byte appended to OUT. -/
theorem printFrame : Obligations.PrintFrame := by
  intro rs s t h
  rcases raise_or_completes_of_perform (c := Config.standard) (d := .instr (.prn rs)) h with
    ⟨err, rfl⟩ | ⟨e, he, rfl⟩
  · exact ⟨rfl, rfl, rfl, fun _ => rfl, .inl rfl, .inr ⟨err, rfl, rfl, rfl⟩⟩
  · have hfl : e.fl = none := by simpa using he.fl
    have hdiag : e.diag = [] := by simpa using he.diag
    have hout : e.out = [] ∨ ∃ v, e.out = [v] := by simpa using he.out
    simpa [he.reg_eq_none rfl, he.run_eq_none nofun, hfl, hdiag] using hout

/-- Settles O21: each jump changes the pc alone, or raises. -/
theorem jumpFrame : Obligations.JumpFrame := by
  intro rt s t h
  obtain ⟨i, hi, h⟩ : ∃ i, (i = .jmp rt ∨ i = .jeq rt ∨ i = .jne rt) ∧ exec i s = .next t := by
    simpa using h
  rcases raise_or_completes_of_perform (c := Config.standard) (d := .instr i) h with ⟨err, rfl⟩ | ⟨e, he, rfl⟩
  · exact ⟨rfl, rfl, rfl, rfl, fun _ => rfl, .inr ⟨err, rfl, rfl⟩⟩
  · have hfl : e.fl = none := by rcases hi with rfl | rfl | rfl <;> simpa using he.fl
    have hout : e.out = [] := by rcases hi with rfl | rfl | rfl <;> simpa using he.out
    have hdiag : e.diag = [] := by simpa using he.diag
    have hrun : e.run = none := he.run_eq_none (by rcases hi with rfl | rfl | rfl <;> nofun)
    have hreg : e.reg = none := he.reg_eq_none (by rcases hi with rfl | rfl | rfl <;> rfl)
    simp [hreg, hfl, hrun, hout, hdiag]

/-- Settles O22: HLT's next state, and the two next states of the unknown-opcode step. -/
theorem haltAndUnknownFrame : Obligations.HaltAndUnknownFrame := by
  intro c b s t h
  have hhlt (h : exec .hlt s = .next t) : t.diag = s.diag := (exec_mem_diag h).2
  suffices t.x = s.x ∧ t.fl = s.fl ∧ t.out = s.out ∧ s.diag <+: t.diag ∧ t.mem = s.mem by
    obtain ⟨hx, hfl, hout, hdiag, hmem⟩ := this
    exact ⟨hx, hfl, hout, hdiag, fun a => by rw [hmem], hhlt⟩
  rcases h with h | h
  · cases (exec_hlt s).symm.trans h
    exact ⟨rfl, rfl, rfl, List.prefix_rfl, rfl⟩
  · cases hstrict : c.strictUnknown with
    | true =>
      cases (execUnknown_of_strict b s hstrict).symm.trans h
      exact ⟨rfl, rfl, rfl, List.prefix_rfl, rfl⟩
    | false =>
      cases (execUnknown_of_lenient b s hstrict).symm.trans h
      exact ⟨rfl, rfl, rfl, List.prefix_append _ _, rfl⟩

/-! ## Raising and halting -/

/-- Settles O26: a step that neither goes on nor halts is a raise, and a raise changes only the run state. -/
theorem faultingStepHasNoOtherEffect : Obligations.FaultingStepHasNoOtherEffect := by
  intro c s t e h he
  rcases run_of_stepWith_eq_next h with hrun | hrun | ⟨err, rfl, _⟩
  · cases hrun.symm.trans he
  · cases hrun.symm.trans he
  · cases he; rfl

/-- The first bad byte of a form's operands is the first bad one of the two bytes fetched for them. -/
theorem firstNonRegister_pair {ops : List Byte} {a b r : Byte} (h : firstNonRegister ops = some r)
    (hops : ops <+: [a, b]) : (8 ≤ a.toNat ∧ r = a) ∨ (a.toNat < 8 ∧ 8 ≤ b.toNat ∧ r = b) := by
  have hpair : firstNonRegister [a, b] = some r := hops.find?_eq_some h
  rcases Nat.lt_or_ge a.toNat 8 with ha | ha
  · rcases Nat.lt_or_ge b.toNat 8 with hb | hb
    · rw [firstNonRegister_cons_of_lt _ ha, firstNonRegister_cons_of_lt _ hb] at hpair
      cases hpair
    · rw [firstNonRegister_cons_of_lt _ ha, firstNonRegister_cons_of_le _ hb] at hpair
      cases hpair; exact .inr ⟨ha, hb, rfl⟩
  · rw [firstNonRegister_cons_of_le _ ha] at hpair
    cases hpair; exact .inl ⟨ha, rfl⟩

theorem operands_decodedAt (c : Config) (s : State) :
    (decodedAt c s).operands <+: [s.mem.read (s.pc + 1), s.mem.read (s.pc + 2)] := by
  rcases decodeWith_kinds c (s.mem.read s.pc) (s.mem.read (s.pc + 1)) (s.mem.read (s.pc + 2)) with
    ⟨i, hd, _, hops⟩ | ⟨hd, _⟩ | ⟨hd, _⟩ <;> rw [decodedAt, hd]
  · exact hops
  · exact List.prefix_rfl
  · exact List.nil_prefix

/-- An operand that raises belongs to a byte in a row. -/
theorem mem_opcodes_of_firstNonRegister {c : Config} {s : State} {r : Byte}
    (h : firstNonRegister (decodedAt c s).operands = some r) : s.mem.read s.pc ∈ c.opcodes := by
  by_contra hbyte
  rw [decodedAt, decodeWith_of_not_mem _ _ hbyte] at h
  cases h

theorem eq_of_decodedAt_eq_unknown {c : Config} {s : State} {b : Byte} (hd : decodedAt c s = .unknown b) :
    s.mem.read s.pc ∉ c.opcodes ∧ b = s.mem.read s.pc := by
  have hbyte := not_mem_opcodes_of_decodeWith_eq_unknown hd
  rw [decodedAt, decodeWith_of_not_mem _ _ hbyte] at hd
  cases hd
  exact ⟨hbyte, rfl⟩

/-- Settles O27: the fetch's error, or one of the two causes that a decoded form has. -/
theorem everyFaultHasItsCause : Obligations.EveryFaultHasItsCause := by
  intro c s t err h herr
  obtain ⟨e, he, rfl, _⟩ := exists_effect_of_stepWith h
  rcases he with hN | ⟨hpc, hcause | hcomplete⟩
  · cases herr; exact .inl ⟨hN, rfl⟩
  · cases herr
    generalize hd : decodedAt c s = d at hcause
    rcases hcause with ⟨b, hstrict⟩ | hbad
    · obtain ⟨hbyte, rfl⟩ := eq_of_decodedAt_eq_unknown hd
      exact .inr (.inl ⟨hpc, hstrict, hbyte, rfl⟩)
    · rw [← hd] at hbad
      have hbyte := mem_opcodes_of_firstNonRegister hbad
      rcases firstNonRegister_pair hbad (operands_decodedAt c s) with ⟨ha, rfl⟩ | ⟨ha, hb, rfl⟩
      · exact .inr (.inr (.inl ⟨hpc, hbyte, ha, rfl⟩))
      · exact .inr (.inr (.inr ⟨hpc, hbyte, ha, hb, rfl⟩))
  · rw [Effect.apply_run, run_eq_running_of_stepWith_eq_next h] at herr
    rcases hcomplete.run with hrun | ⟨_, hrun, _⟩ <;> rw [hrun] at herr <;> cases herr

/-- Settles O29: of the effects of a step only the completed HLT's sets Halted. -/
theorem onlyHltHalts : Obligations.OnlyHltHalts := by
  intro c s t h hhalted
  obtain ⟨e, he, rfl, _⟩ := exists_effect_of_stepWith h
  rcases he with hN | ⟨hpc, hcause | hcomplete⟩
  · cases hhalted
  · cases hhalted
  · rcases hcomplete.run with hrun | ⟨hd, _, hnext⟩
    · rw [Effect.apply_run, hrun, run_eq_running_of_stepWith_eq_next h] at hhalted
      cases hhalted
    · exact ⟨(opcode_operands_of_decodeWith_eq_instr hd).1, hnext⟩

/-- Settles O30: each arm's next state on register operands that name registers. -/
theorem wellFormedInstructionNeverRaises : Obligations.WellFormedInstructionNeverRaises := by
  intro i s hwf hrun
  cases i with
  | hlt => exact ⟨_, exec_hlt s, .inr rfl⟩
  | ldi rd imm => exact ⟨_, exec_ldi_of_lt imm s (of_decide_eq_true hwf), .inl hrun⟩
  | prn rs => exact ⟨_, exec_prn_of_lt s (of_decide_eq_true hwf), .inl hrun⟩
  | mul rd rs =>
    obtain ⟨hd, hs⟩ := Bool.and_eq_true_iff.1 hwf
    exact ⟨_, exec_mul_of_lt s (of_decide_eq_true hd) (of_decide_eq_true hs), .inl hrun⟩
  | cmp ra rb =>
    obtain ⟨ha, hb⟩ := Bool.and_eq_true_iff.1 hwf
    exact ⟨_, exec_cmp_of_lt s (of_decide_eq_true ha) (of_decide_eq_true hb), .inl hrun⟩
  | jmp rt => exact ⟨_, exec_jmp_of_lt s (of_decide_eq_true hwf), .inl hrun⟩
  | jeq rt => exact ⟨_, exec_jeq_of_lt s (of_decide_eq_true hwf), .inl (by split <;> exact hrun)⟩
  | jne rt => exact ⟨_, exec_jne_of_lt s (of_decide_eq_true hwf), .inl (by split <;> exact hrun)⟩

/-! ## What a step writes and reads -/

/-- Settles O33: an effect that writes the flags is a comparison's. -/
theorem onlyCmpWritesFlags : Obligations.OnlyCmpWritesFlags := by
  intro c s t h hbyte
  obtain ⟨e, he, rfl, _⟩ := exists_effect_of_stepWith h
  rcases he.fl with hfl | ⟨hcmp, _⟩
  · simp [hfl]
  · exact absurd hcmp hbyte

/-- Settles O37: an effect is no function of memory, so the state with the other memory has the same one. -/
theorem stepReadsOnlyThreeCells : Obligations.StepReadsOnlyThreeCells := by
  intro c s t m hcells h
  obtain ⟨e, _, rfl, hsame⟩ := exists_effect_of_stepWith h
  exact ⟨hsame { s with mem := m } ⟨rfl, rfl, rfl, rfl, hcells⟩, rfl⟩

/-- Settles O38: one effect in both states, and it names the register it overwrites. -/
theorem instructionUsesOnlyItsRegisters : Obligations.InstructionUsesOnlyItsRegisters := by
  intro i s t y hrun hread h
  obtain ⟨e, he, rfl, hsame⟩ := exists_effect_of_perform (c := Config.standard) (d := .instr i) h
  refine ⟨e.apply { s with x := y }, hsame { s with x := y } ⟨rfl, rfl, hread⟩, rfl, fun j hj hother => ?others,
    fun r hr hwritten hok => ?written⟩
  case others =>
    have hreg : ∀ p ∈ e.reg, p.1.val ≠ j := by
      rcases he with _ | hcomplete
      · exact nofun
      · intro p hp hpj
        obtain ⟨r, hr, hrj⟩ := (hcomplete.exists_reg_iff j).1 ⟨p, hp, hpj⟩
        exact hother r hr hrj
    exact ⟨RegFile.overwrite_getElem_of_ne hj hreg, RegFile.overwrite_getElem_of_ne hj hreg⟩
  case written =>
    rcases he with _ | hcomplete
    · exact absurd rfl (hok _)
    · obtain ⟨⟨j, v⟩, hp, hj⟩ := (hcomplete.exists_reg_iff r.toNat).2 ⟨r, hwritten, rfl⟩
      simp only [Effect.apply_x, Option.mem_def.1 hp]
      rw [RegFile.overwrite_getElem_of_eq hr hj, RegFile.overwrite_getElem_of_eq hr hj]

end Sys2Proof.Machine

/-! PROOFS. Rules about a run, from the effect of each of its steps (spec/10_state.md R29 to R35;
spec/40_execution_cycle.md section 3). -/

namespace Sys2Proof.Machine

section

variable {c : Config} {s t : State}

/-! ## What every step keeps -/

theorem mem_eq_of_stepWith (h : stepWith c s = .next t) : t.mem = s.mem := by
  obtain ⟨e, _, rfl, _⟩ := exists_effect_of_stepWith h
  rfl

theorem traces_prefix_of_stepWith (h : stepWith c s = .next t) : s.out <+: t.out ∧ s.diag <+: t.diag := by
  obtain ⟨e, _, rfl, _⟩ := exists_effect_of_stepWith h
  exact ⟨List.prefix_append _ _, List.prefix_append _ _⟩

theorem flags_of_stepWith (h : stepWith c s = .next t) : t.fl = s.fl ∨ t.fl.count = 1 := by
  obtain ⟨e, he, rfl, _⟩ := exists_effect_of_stepWith h
  rcases he.fl with hfl | ⟨_, a, b, hfl⟩
  · exact .inl (by simp [hfl])
  · exact .inr (by simp [hfl, Flags.count_compare])

end

/-- Settles O32: no effect is on memory. -/
theorem memoryConstantDuringRun : Obligations.MemoryConstantDuringRun := fun _ k s =>
  runFor_induction (P := fun u => u.mem = s.mem) (fun _ _ h hmem => (mem_eq_of_stepWith h).trans hmem) k rfl

/-- Settles O34: the flags are kept, or they are those of a comparison. -/
theorem oneFlagStaysSetAfterCompare : Obligations.OneFlagStaysSetAfterCompare := fun _ k _ hs =>
  runFor_induction (P := fun u => u.fl.count = 1)
    (fun _ _ h hcount => (flags_of_stepWith h).elim (fun hfl => hfl ▸ hcount) id) k hs

/-- Settles O35: an effect appends to the traces. -/
theorem tracesOnlyGrow : Obligations.TracesOnlyGrow := fun _ k s =>
  runFor_induction (P := fun u => s.out <+: u.out ∧ s.diag <+: u.diag)
    (fun _ _ h ⟨hout, hdiag⟩ =>
      ⟨hout.trans (traces_prefix_of_stepWith h).1, hdiag.trans (traces_prefix_of_stepWith h).2⟩)
    k ⟨List.prefix_rfl, List.prefix_rfl⟩

/-! ## Two runs that agree on what is read -/

theorem AgreeOnWhatIsRead.stepReadsAlike {s t : State} (h : AgreeOnWhatIsRead s t) : StepReadsAlike s t := by
  obtain ⟨hmem, hx, hequal, hpc, hrun⟩ := h
  exact ⟨hrun.symm, hpc.symm, hequal.symm, hx.symm, fun _ _ => by rw [hmem]⟩

theorem AgreeOnWhatIsRead.apply {s t : State} (h : AgreeOnWhatIsRead s t) (e : Effect) :
    AgreeOnWhatIsRead (e.apply s) (e.apply t) := by
  obtain ⟨hmem, hx, hequal, _, hrun⟩ := h
  refine ⟨hmem, by simp [hx], ?_, rfl, by simp [hrun]⟩
  cases hfl : e.fl <;> simp [hfl, hequal]

/-- Settles O36: by induction on the number of steps, each of which has one effect in both runs. -/
theorem unreadStateNeverMatters : Obligations.UnreadStateNeverMatters := by
  intro c k
  induction k with
  | zero => exact fun s t h => ⟨h, [], [], by simp⟩
  | succ k ih =>
    intro s t h
    by_cases hrun : s.run = .running
    · obtain ⟨s', hs⟩ := exists_stepWith_eq_next (c := c) hrun
      obtain ⟨e, _, rfl, hsame⟩ := exists_effect_of_stepWith hs
      have ht := hsame t h.stepReadsAlike
      obtain ⟨hagree, o, d, hsout, htout, hsdiag, htdiag⟩ := ih _ _ (h.apply e)
      rw [runFor_succ_of_next k hs, runFor_succ_of_next k ht]
      refine ⟨hagree, e.out ++ o, e.diag ++ d, ?_⟩
      simp [hsout, htout, hsdiag, htdiag]
    · obtain ⟨r, hs⟩ := exists_stepWith_eq_fault (c := c) hrun
      obtain ⟨r', ht⟩ := exists_stepWith_eq_fault (c := c) (h.stepReadsAlike.run ▸ hrun)
      rw [runFor_of_fault _ hs, runFor_of_fault _ ht]
      exact ⟨h, [], [], by simp⟩

/-! ## Two programs whose runs are known -/

/-- Settles O43: JMP to its own address steps to the same state. -/
theorem selfJumpRunsForever : Obligations.SelfJumpRunsForever := by
  intro c s rt h hrun hpc hd hself k
  have hstep : stepWith c s = .next s := by
    rw [stepWith_of_fetchable hrun hpc, hd, perform_instr, exec_jmp_of_lt s h, State.jumpTo, hself]
  exact runFor_induction (P := fun u => u = s) (fun u t hu hus => by subst hus; cases hu.symm.trans hstep; rfl) k rfl

/-- Each of `n` zero bytes below N - 2 is reported and skipped, and the fetch at N - 2 fails. -/
theorem runFor_of_zeros {c : Config} (hlenient : c.strictUnknown = false) (hzero : (0x00 : Byte) ∉ c.opcodes) (n : Nat)
    {s : State} (hrun : s.run = .running) (hN : s.pc + n + 2 = c.memSize)
    (hcells : ∀ a, s.pc ≤ a → a < c.memSize → s.mem.read a = 0x00) :
    runFor c (n + 1) s =
      { s with
        pc := s.pc + n
        run := .faulted (.outOfBounds c.memSize)
        diag := s.diag ++ (List.range' s.pc n).map fun a => ⟨0x00, a⟩ } := by
  induction n generalizing s with
  | zero =>
    have hmax : max s.pc c.memSize = c.memSize := by omega
    rw [runFor_succ_of_next 0 (stepWith_of_unfetchable hrun (by omega)), hmax]
    simp [State.raise]
  | succ n ih =>
    have hbyte : s.mem.read s.pc = 0x00 := hcells s.pc le_rfl (by omega)
    have hskip := (unknownOpcodeIsReportedAndSkipped c s hrun (by omega) (hbyte ▸ hzero)).1 hlenient
    rw [runFor_succ_of_next (n + 1) hskip, ih]
    case hrun => exact hrun
    case hN => show s.pc + 1 + n + 2 = c.memSize; omega
    case hcells => exact fun a ha => hcells a (Nat.le_of_succ_le ha)
    simp [hbyte, List.range'_succ, Nat.add_assoc, Nat.add_comm 1 n]

/-- Settles O42: the zero bytes left are N - 2 - pc. -/
theorem runOffTheEndFaults : Obligations.RunOffTheEndFaults := by
  intro c s hlenient hzero hrun hN hcells
  have hlast : s.pc + (c.memSize - 2 - s.pc) = c.memSize - 2 := by omega
  have hfault := runFor_of_zeros hlenient hzero (c.memSize - 2 - s.pc) hrun (by omega) hcells
  rwa [hlast] at hfault

end Sys2Proof.Machine

/-! PROOFS. The invariant of the machine: it holds at reset and at launch, and every step keeps it
(spec/10_state.md R25, R29, R33, R35; spec/40_execution_cycle.md R93, R97; spec/70_reset_and_hazards.md R180, R181). -/

namespace Sys2Proof.Machine

section

variable {c : Config} {s t : State} {e : Effect}

/-! ## The invariant's clauses after a step -/

/-- A fall-through stays within N, and a jump's target is a byte (R25). -/
theorem StepEffect.pc_le (h : StepEffect c s e) (hpc : s.pc ≤ max c.memSize 255) : e.pc ≤ max c.memSize 255 := by
  rcases h with _ | ⟨hfetch, _ | hcomplete⟩
  · exact hpc
  · exact hpc
  · have hnext := hcomplete.pc
    omega

/-- The one record a step can add is of the byte and the address it was fetched from (R141). -/
theorem StepEffect.diag (h : StepEffect c s e) :
    e.diag = [] ∨ s.pc + 2 < c.memSize ∧ s.mem.read s.pc ∉ c.opcodes ∧ e.diag = [⟨s.mem.read s.pc, s.pc⟩] := by
  rcases h with _ | ⟨hfetch, _ | hcomplete⟩
  · exact .inl rfl
  · exact .inl rfl
  · refine hcomplete.diag.imp_right ?_
    rintro ⟨b, hd, hdiag⟩
    obtain ⟨hbyte, rfl⟩ := eq_of_decodedAt_eq_unknown hd
    exact ⟨hfetch, hbyte, hdiag⟩

/-- The four causes of a raise are what `ErrorOk` asks of the error. -/
theorem errorOk_of_stepWith {err : CoreError} (h : stepWith c s = .next t) (herr : t.run = .faulted err) :
    ErrorOk c s err := by
  rcases everyFaultHasItsCause c s t err h herr with
    ⟨hN, rfl⟩ | ⟨hpc, hstrict, hbyte, rfl⟩ | ⟨hpc, _, ha, rfl⟩ | ⟨hpc, _, _, hb, rfl⟩
  · exact ⟨hN, rfl⟩
  · exact ⟨hstrict, rfl, hpc, rfl, hbyte⟩
  · exact ⟨ha, hpc, .inl rfl⟩
  · exact ⟨hb, hpc, .inr rfl⟩

theorem fetchable_of_halted (h : stepWith c s = .next t) (hhalted : t.run = .halted) : s.pc + 2 < c.memSize := by
  by_contra hpc
  cases (stepWith_of_unfetchable (run_eq_running_of_stepWith_eq_next h) (Nat.not_lt.1 hpc)).symm.trans h
  cases hhalted

/-- However a step stopped the machine, the state it leaves explains why. -/
theorem runOk_of_stepWith (h : stepWith c s = .next t) : RunOk c t := by
  have hrun := run_eq_running_of_stepWith_eq_next h
  cases ht : t.run with
  | running => simp [RunOk, ht]
  | halted =>
    obtain ⟨hbyte, hpc⟩ := onlyHltHalts c s t h ht
    have hfetch := fetchable_of_halted h ht
    rw [RunOk, ht, mem_eq_of_stepWith h, hpc]
    exact ⟨Nat.succ_pos _, hfetch, hbyte⟩
  | faulted err =>
    have herror := errorOk_of_stepWith h ht
    have hraise := faultingStepHasNoOtherEffect c s t err h ht
    have hbefore : { t with run := .running } = s := by rw [hraise, ← hrun]
    rw [RunOk, ht]
    refine ⟨hbefore ▸ h, ?_⟩
    rw [hraise]
    exact herror

/-- Every step keeps the invariant, under any configuration. -/
theorem inv_of_stepWith (hinv : Inv c s) (h : stepWith c s = .next t) : Inv c t := by
  have hrunOk := runOk_of_stepWith h
  obtain ⟨e, he, rfl, _⟩ := exists_effect_of_stepWith h
  refine ⟨hinv.memory, ?flags, he.pc_le hinv.pc, ?diag, hrunOk⟩
  case flags =>
    rcases flags_of_stepWith h with hfl | hcount
    · exact hfl ▸ hinv.flags
    · exact hcount.le
  case diag =>
    intro r hr
    rcases List.mem_append.1 hr with hold | hnew
    · exact hinv.diag r hold
    · rcases he.diag with hdiag | ⟨hfetch, hbyte, hdiag⟩
      · rw [hdiag] at hnew; cases hnew
      · rw [hdiag, List.mem_singleton] at hnew
        subst hnew
        exact ⟨hfetch, rfl, hbyte⟩

end

/-- Settles O39: the conditions on the opcode map are not needed. -/
theorem stepKeepsInvariant : Obligations.StepKeepsInvariant :=
  ⟨fun _ _ _ _ => inv_of_stepWith, fun _ _ => inv_of_stepWith⟩

/-! ## Reset and launch -/

/-- Reset's state with any memory that is as it should be. -/
theorem inv_reset_with_mem {c : Config} {m : Memory} (hm : MemoryOk c m) : Inv c { State.reset with mem := m } :=
  ⟨hm, Nat.zero_le 1, Nat.zero_le _, fun _ hr => (List.not_mem_nil hr).elim, trivial⟩

theorem memoryOk_reset (c : Config) : MemoryOk c State.reset.mem := ⟨reset_mem_wf, nofun⟩

/-- Settles O40: reset's memory lists no cell. -/
theorem resetMeetsInvariant : Obligations.ResetMeetsInvariant := fun c => inv_reset_with_mem (memoryOk_reset c)

/-- Placing an image keeps memory as it should be: each byte of it is a write that succeeded. -/
theorem memoryOk_of_placeImage {c : Config} {m m' : Memory} {a : Nat} {bs : List Byte} (hm : MemoryOk c m)
    (h : placeImage c m a bs = .ok m') : MemoryOk c m' := by
  induction bs generalizing m a with
  | nil => cases h; exact hm
  | cons b bs ih =>
    rw [placeImage] at h
    cases hwrite : memWrite c m a b with
    | error e => rw [hwrite] at h; cases h
    | ok m₁ =>
      rw [hwrite] at h
      exact ih ⟨memWrite_wf hm.1 hwrite, memWrite_inRange hm.2 hwrite⟩ h

theorem placeImage_of_load_eq_ok {c : Config} {image : List Byte} {s : State} (h : load c image = .ok s) :
    ∃ m, placeImage c State.reset.mem 0 image = .ok m ∧ s = { State.reset with mem := m } := by
  cases hplace : placeImage c State.reset.mem 0 image with
  | error e => rw [load, hplace] at h; cases h
  | ok m => cases (load_of_placeImage_eq_ok hplace).symm.trans h; exact ⟨m, rfl, rfl⟩

/-- Settles O41: a launch state is reset's but for the image placed in memory. -/
theorem launchStateMeetsInvariant : Obligations.LaunchStateMeetsInvariant := by
  intro c image s h
  obtain ⟨m, hplace, rfl⟩ := placeImage_of_load_eq_ok h
  exact inv_reset_with_mem (memoryOk_of_placeImage (memoryOk_reset c) hplace)

/-- Settles O44: reset's memory lists no cell, so each reads as an unlisted one. -/
theorem resetIsAllZeroAndRunning : Obligations.ResetIsAllZeroAndRunning :=
  ⟨fun _ => rfl, reset_x_eq_zero, rfl, rfl, rfl, rfl, rfl⟩

end Sys2Proof.Machine

/-! PROOFS. Memory in canonical form is a function of its contents; the memory port; an image or a word placed from
outside (spec/20_memory.md R51, R52; spec/70_reset_and_hazards.md R181, R183). -/

namespace Sys2Proof.Machine

section

variable {c : Config} {m : Memory} {a : Nat}

/-! ## The canonical form -/

theorem Memory.mem_of_read {v : Byte} (h : m.read a = v) (hv : v ≠ Memory.unlisted) : (a, v) ∈ m := by
  induction m with
  | nil => exact absurd h.symm hv
  | cons cell m ih =>
    obtain ⟨k, w⟩ := cell
    rw [Memory.read] at h
    split at h
    · subst_vars; exact List.mem_cons_self
    · exact List.mem_cons_of_mem _ (ih h)

theorem Memory.read_of_mem {v : Byte} (hm : m.Pairwise fun p q => p.1 < q.1) (h : (a, v) ∈ m) : m.read a = v := by
  induction m with
  | nil => cases h
  | cons cell m ih =>
    obtain ⟨hfirst, htail⟩ := List.pairwise_cons.1 hm
    rcases List.mem_cons.1 h with rfl | h
    · exact if_pos rfl
    · rw [Memory.read, if_neg (hfirst _ h).ne, ih htail h]

/-- A canonical memory lists exactly the cells that do not read as an unlisted one. -/
theorem Memory.mem_iff_read (hm : m.wf) (cell : Host.Cell) :
    cell ∈ m ↔ m.read cell.1 = cell.2 ∧ cell.2 ≠ Memory.unlisted :=
  ⟨fun h => ⟨Memory.read_of_mem hm.1 h, hm.2 cell h⟩, fun ⟨h, hv⟩ => Memory.mem_of_read h hv⟩

theorem Memory.nodup_of_wf (hm : m.wf) : m.Nodup := hm.1.imp fun hlt heq => hlt.ne (congrArg Prod.fst heq)

end

/-- Settles O46: the same cells are listed in both, and rising addresses fix their order. -/
theorem canonicalMemoryIsUnique : Obligations.CanonicalMemoryIsUnique := by
  intro m n hm hn hread
  have hmem (cell : Host.Cell) : cell ∈ m ↔ cell ∈ n := by
    rw [Memory.mem_iff_read hm, Memory.mem_iff_read hn, hread]
  have hperm := (List.perm_ext_iff_of_nodup (Memory.nodup_of_wf hm) (Memory.nodup_of_wf hn)).2 hmem
  exact hperm.eq_of_pairwise (fun _ _ _ _ hlt hgt => absurd hlt hgt.not_gt) hm.1 hn.1

section

variable {c : Config} {m : Memory} {a : Nat}

/-! ## The memory port outside [0, N) -/

theorem memRead_of_le (m : Memory) (h : c.memSize ≤ a) : memRead c m a = .error (.outOfBounds a) :=
  if_neg (Nat.not_lt.2 h)

theorem memWrite_of_le (m : Memory) (v : Byte) (h : c.memSize ≤ a) : memWrite c m a v = .error (.outOfBounds a) :=
  if_neg (Nat.not_lt.2 h)

end

/-- Settles O45: the port's two sides, and what memory reads after a write. -/
theorem memoryPortContract : Obligations.MemoryPortContract := by
  intro c m a v hm
  refine ⟨fun ha => ⟨memRead_of_lt m ha, _, memWrite_of_lt m v ha, ?same, fun b hb => ?other⟩,
    fun ha => ⟨memRead_of_le m ha, memWrite_of_le m v ha⟩⟩
  case same => rw [Memory.read_write hm.1, if_pos rfl]
  case other => rw [Memory.read_write hm.1, if_neg hb]

section

variable {c : Config} {m : Memory} {a : Nat}

/-! ## Images that do not fit, and words that do -/

/-- Placing an image that reaches past memory fails at the first address that does not exist. -/
theorem placeImage_of_overlong {bs : List Byte} (ha : a ≤ c.memSize) (hlong : c.memSize < a + bs.length) :
    placeImage c m a bs = .error (.outOfBounds c.memSize) := by
  induction bs generalizing m a with
  | nil => exact absurd hlong ha.not_gt
  | cons b bs ih =>
    rcases Nat.lt_or_eq_of_le ha with hlt | rfl
    · rw [placeImage_cons_of_lt m b bs hlt]
      exact ih hlt (by rwa [List.length_cons, Nat.add_comm bs.length, ← Nat.add_assoc] at hlong)
    · rw [placeImage, memWrite_of_le m b le_rfl]; rfl

/-- Where all of the bytes fit, poking them is placing them. -/
theorem placeImage_eq_pokeBytes {bs : List Byte} (hfits : a + bs.length ≤ c.memSize) :
    placeImage c m a bs = .ok (pokeBytes c m a bs) := by
  induction bs generalizing m a with
  | nil => rfl
  | cons b bs ih =>
    rw [List.length_cons] at hfits
    have ha : a < c.memSize := by omega
    rw [placeImage_cons_of_lt m b bs ha, ih (by omega), pokeBytes, if_pos ha]

theorem read_pokeBytes {bs : List Byte} (hm : m.Pairwise fun p q => p.1 < q.1) (hfits : a + bs.length ≤ c.memSize)
    (i : Nat) (hi : i < bs.length) : (pokeBytes c m a bs).read (a + i) = bs[i] := by
  obtain ⟨m', hplace, hinside, _⟩ := placeImage_of_fits hm hfits
  cases (placeImage_eq_pokeBytes hfits).symm.trans hplace
  exact hinside i hi

end

/-- Settles O48: the load from address 0 reaches past memory. -/
theorem overlongImageIsRefused : Obligations.OverlongImageIsRefused := by
  intro c image hlong
  rw [load, placeImage_of_overlong (Nat.zero_le _) (by rwa [Nat.zero_add])]; rfl

theorem decode_of_decodeTableWord {nbits w : Nat} {i : Instr} (h : decodeTableWord nbits w = some i) :
    decode (byteOfWord (w % 2 ^ nbits) 0) (byteOfWord (w % 2 ^ nbits) 1) (byteOfWord (w % 2 ^ nbits) 2) = .instr i := by
  simp only [decodeTableWord] at h
  split at h <;> cases h
  assumption

/-- Settles O49: the three cells of the next fetch read as the word's three bytes. -/
theorem fetchWordRunsItsInstruction : Obligations.FetchWordRunsItsInstruction := by
  intro s nbits w i hm hrun hpc hdecode
  have hread := read_pokeBytes (c := Config.standard) (a := s.pc)
    (bs := [byteOfWord (w % 2 ^ nbits) 0, byteOfWord (w % 2 ^ nbits) 1, byteOfWord (w % 2 ^ nbits) 2]) hm.1 hpc
  refine stepRunsDecodedInstruction.2 i (s.withFetchWord nbits w) hrun hpc ?_
  rw [← decode_of_decodeTableWord hdecode]
  exact congr (congr (congrArg decode (hread 0 (by simp))) (hread 1 (by simp))) (hread 2 (by simp))

end Sys2Proof.Machine

/-! PROOFS. The laws of the ALU's operations on values (spec/41_alu.md section 6). -/

namespace Sys2Proof.Machine

/-- Settles O50: commutativity of the natural numbers' sum and product, and each flag as a comparison of its own. -/
theorem arithmeticLaws : Obligations.ArithmeticLaws := by
  intro a b
  refine ⟨congrArg (BitVec.ofNat 8) (Nat.add_comm _ _), congrArg (BitVec.ofNat 8) (Nat.mul_comm _ _),
    addMod256_toNat a b, mulMod256_toNat a b, ?equal, ?greater, ?less, Flags.compare_equal_iff a b,
    Flags.count_compare a b⟩
  case equal => simp [Flags.compare_eq_decide, eq_comm]
  case greater | less => simp [Flags.compare_eq_decide]

end Sys2Proof.Machine

/-! PROOFS. The text of OUT: decimal numerals, one a line (spec/10_state.md R34). -/

namespace Sys2Proof.Machine

/-! ## Digits and numerals -/

theorem digitChar_toNat : ∀ d < 10, (digitChar d).toNat = 48 + d := by decide

theorem digitChar_isDigit : ∀ d < 10, (digitChar d).isDigit = true := by decide

theorem digitChar_ne_zero : ∀ d < 10, d ≠ 0 → digitChar d ≠ '0' := by decide

/-- The numeral has one, two or three digits, by the value's size. -/
theorem decimal_cases (v : Byte) :
    (v.toNat < 10 ∧ decimal v = [digitChar v.toNat]) ∨
    (10 ≤ v.toNat ∧ v.toNat < 100 ∧ decimal v = [digitChar (v.toNat / 10), digitChar (v.toNat % 10)]) ∨
    (100 ≤ v.toNat ∧
      decimal v = [digitChar (v.toNat / 100), digitChar (v.toNat / 10 % 10), digitChar (v.toNat % 10)]) := by
  rcases Nat.lt_or_ge v.toNat 10 with h10 | h10
  · exact .inl ⟨h10, by simp [decimal, h10]⟩
  · have hne10 : ¬ v.toNat < 10 := h10.not_gt
    rcases Nat.lt_or_ge v.toNat 100 with h100 | h100
    · exact .inr (.inl ⟨h10, h100, by simp only [decimal, hne10, h100, if_true, if_false]⟩)
    · have hne100 : ¬ v.toNat < 100 := h100.not_gt
      exact .inr (.inr ⟨h100, by simp only [decimal, hne10, hne100, if_false]⟩)

/-- The value of a numeral of decimal digits, the most significant first. -/
def decimalValue (numeral : List Char) : Nat := numeral.foldl (fun n ch => 10 * n + (ch.toNat - 48)) 0

theorem decimalValue_decimal (v : Byte) : decimalValue (decimal v) = v.toNat := by
  have hv := v.isLt
  rcases decimal_cases v with ⟨hn, hd⟩ | ⟨_, hn, hd⟩ | ⟨hn, hd⟩ <;>
    rw [hd] <;> simp only [decimalValue, List.foldl_cons, List.foldl_nil]
  · rw [digitChar_toNat _ hn]; omega
  · rw [digitChar_toNat (v.toNat / 10) (by omega), digitChar_toNat (v.toNat % 10) (by omega)]; omega
  · rw [digitChar_toNat (v.toNat / 100) (by omega), digitChar_toNat (v.toNat / 10 % 10) (by omega),
      digitChar_toNat (v.toNat % 10) (by omega)]
    omega

theorem decimal_injective : Function.Injective decimal := fun v w h =>
  BitVec.eq_of_toNat_eq (by rw [← decimalValue_decimal v, h, decimalValue_decimal])

theorem decimal_isDigit (v : Byte) : ∀ ch ∈ decimal v, ch.isDigit = true := by
  have hv := v.isLt
  rcases decimal_cases v with ⟨hn, hd⟩ | ⟨_, hn, hd⟩ | ⟨hn, hd⟩ <;>
    simp only [hd, List.forall_mem_cons, List.not_mem_nil, false_implies, implies_true, and_true]
  · exact digitChar_isDigit _ hn
  · exact ⟨digitChar_isDigit _ (by omega), digitChar_isDigit _ (by omega)⟩
  · exact ⟨digitChar_isDigit _ (by omega), digitChar_isDigit _ (by omega), digitChar_isDigit _ (by omega)⟩

theorem decimal_head_ne_zero (v : Byte) (h : 1 < (decimal v).length) : (decimal v).head? ≠ some '0' := by
  have hv := v.isLt
  rcases decimal_cases v with ⟨hn, hd⟩ | ⟨hlow, hn, hd⟩ | ⟨hn, hd⟩ <;> rw [hd] at h ⊢
  · exact absurd h (lt_irrefl 1)
  · exact fun heq => digitChar_ne_zero (v.toNat / 10) (by omega) (by omega) (Option.some.inj heq)
  · exact fun heq => digitChar_ne_zero (v.toNat / 100) (by omega) (by omega) (Option.some.inj heq)

/-! ## Lines -/

theorem renderOut_cons (v : Byte) (o : List Byte) : renderOut (v :: o) = decimal v ++ '\n' :: renderOut o := by
  simp [renderOut]

/-- What stands before the first line end of a text. -/
theorem takeWhile_ne_newline {line : List Char} (h : '\n' ∉ line) (rest : List Char) :
    (line ++ '\n' :: rest).takeWhile (· ≠ '\n') = line := by
  rw [List.takeWhile_append_of_pos fun ch hch => decide_eq_true (ne_of_mem_of_not_mem hch h)]
  simp

theorem newline_not_mem_decimal (v : Byte) : '\n' ∉ decimal v := fun h => absurd (decimal_isDigit v _ h) (by decide)

/-- The first line of the text is the first value's numeral, and the rest of the text is that of the rest. -/
theorem renderOut_injective : Function.Injective renderOut := by
  intro o
  induction o with
  | nil =>
    intro o' h
    cases o' with
    | nil => rfl
    | cons w o' => simp [renderOut] at h
  | cons v o ih =>
    intro o' h
    cases o' with
    | nil => simp [renderOut] at h
    | cons w o' =>
      rw [renderOut_cons, renderOut_cons] at h
      have hline := congrArg (List.takeWhile (· ≠ '\n')) h
      rw [takeWhile_ne_newline (newline_not_mem_decimal v), takeWhile_ne_newline (newline_not_mem_decimal w)] at hline
      obtain rfl := decimal_injective hline
      rw [ih (List.cons.inj (List.append_cancel_left h)).2]

/-- Settles O51: a numeral has its byte's value, so lines, and then texts, determine what they show. -/
theorem outputTextDeterminesOutput : Obligations.OutputTextDeterminesOutput :=
  ⟨fun v => ⟨decimalValue_decimal v, decimal_head_ne_zero v, decimal_isDigit v⟩, rfl, renderOut_cons,
    fun _ _ h => renderOut_injective h⟩

end Sys2Proof.Machine

/-! PROOFS. The image's text: lines of eight base-2 digits with comments (spec/70_reset_and_hazards.md R182). -/

namespace Sys2Proof.Machine

/-! ## The line of a byte -/

@[simp] theorem binaryLine_length (b : Byte) : (binaryLine b).length = 8 := by simp [binaryLine]

theorem isBinaryDigit_of_mem_binaryLine {b : Byte} {ch : Char} (h : ch ∈ binaryLine b) : isBinaryDigit ch = true := by
  obtain ⟨k, _, rfl⟩ := List.mem_map.1 h
  cases b.getLsbD (7 - k) <;> decide

/-- The first `k` digits are the byte's `k` most significant bits. -/
theorem binaryValue_of_high_bits (b : Byte) (k : Nat) (hk : k ≤ 8) :
    binaryValue ((List.range k).map fun j => if b.getLsbD (7 - j) then '1' else '0') = b.toNat / 2 ^ (8 - k) := by
  induction k with
  | zero => exact (Nat.div_eq_of_lt b.isLt).symm
  | succ k ih =>
    have hbit : (b.getLsbD (7 - k)).toNat = b.toNat / 2 ^ (7 - k) % 2 := by
      rw [← BitVec.testBit_toNat, Nat.toNat_testBit]
    have hhigh : b.toNat / 2 ^ (8 - k) = b.toNat / 2 ^ (7 - k) / 2 := by
      rw [Nat.div_div_eq_div_mul, ← Nat.pow_succ, Nat.succ_sub (by omega : k ≤ 7)]
    have hdigit : (if (if b.getLsbD (7 - k) then '1' else '0') = '1' then 1 else 0) = (b.getLsbD (7 - k)).toNat := by
      cases b.getLsbD (7 - k) <;> rfl
    rw [binaryValue] at ih ⊢
    rw [List.range_succ, List.map_append, List.foldl_append, ih (by omega), List.map_singleton, List.foldl_cons,
      List.foldl_nil, hdigit, hbit, hhigh, Nat.div_add_mod, Nat.succ_sub_succ]

theorem binaryValue_binaryLine (b : Byte) : binaryValue (binaryLine b) = b.toNat :=
  (binaryValue_of_high_bits b 8 le_rfl).trans (Nat.div_one _)

/-! ## Reading a line -/

theorem isBlank_of_isBinaryDigit {ch : Char} (h : isBinaryDigit ch = true) : isBlank ch = false := by
  rcases Bool.or_eq_true_iff.1 h with h | h <;> rw [of_decide_eq_true h] <;> decide

theorem ne_hash_of_isBinaryDigit {ch : Char} (h : isBinaryDigit ch = true) : ch ≠ '#' := by
  rintro rfl; exact absurd h (by decide)

theorem stripComment_append {token : List Char} (h : ∀ ch ∈ token, ch ≠ '#') (comment : List Char) :
    stripComment (token ++ ' ' :: '#' :: comment) = token ++ [' '] := by
  rw [stripComment, List.takeWhile_append_of_pos fun ch hch => decide_eq_true (h ch hch)]
  simp

theorem dropTrailingBlanks_append_space {token : List Char} (h : ∀ ch ∈ token, isBlank ch = false) :
    dropTrailingBlanks (token ++ [' ']) = token := by
  have hkeep : token.reverse.dropWhile isBlank = token.reverse :=
    List.dropWhile_eq_self_iff.2 fun hlen =>
      Bool.eq_false_iff.1 (h _ (List.mem_reverse.1 (List.getElem_mem hlen)))
  rw [dropTrailingBlanks, List.reverse_append, List.reverse_singleton, List.singleton_append,
    List.dropWhile_cons_of_pos (by decide), hkeep, List.reverse_reverse]

theorem readLine_binaryLine (b : Byte) (comment : List Char) :
    readLine (binaryLine b ++ ' ' :: '#' :: comment) = .byte b := by
  have hblank (ch) (hch : ch ∈ binaryLine b) := isBlank_of_isBinaryDigit (isBinaryDigit_of_mem_binaryLine hch)
  have hbody : (binaryLine b ++ [' ']).all isBlank = false := by
    rw [List.all_append, Bool.and_eq_false_iff, List.all_eq_false]
    have hfirst := List.getElem_mem (l := binaryLine b) (n := 0) (by simp)
    exact .inl ⟨_, hfirst, by simp [hblank _ hfirst]⟩
  have hdigits : (binaryLine b).all isBinaryDigit = true :=
    List.all_eq_true.2 fun _ => isBinaryDigit_of_mem_binaryLine
  rw [readLine, stripComment_append fun ch hch => ne_hash_of_isBinaryDigit (isBinaryDigit_of_mem_binaryLine hch),
    dropTrailingBlanks_append_space hblank]
  simp [hbody, hdigits, binaryValue_binaryLine]

/-! ## Reading the text -/

/-- The characters up to a line end are one line. -/
theorem readTextFrom_append_newline {line : List Char} (h : '\n' ∉ line) (soFar rest : List Char) :
    readTextFrom soFar (line ++ '\n' :: rest) =
      TextRead.cons (readLine (soFar.reverse ++ line)) (readTextFrom [] rest) := by
  induction line generalizing soFar with
  | nil => simp [readTextFrom]
  | cons ch line ih =>
    obtain ⟨hch, hline⟩ : ch ≠ '\n' ∧ '\n' ∉ line := by simpa [eq_comm] using h
    rw [List.cons_append, readTextFrom, if_neg hch, ih hline]
    simp

/-- Settles O52: by induction on the lines; each is read to its end as its byte. -/
theorem imageTextOfBinaryLines : Obligations.ImageTextOfBinaryLines := by
  intro lines h
  induction lines with
  | nil => rfl
  | cons p lines ih =>
    obtain ⟨hp, hlines⟩ := List.forall_mem_cons.1 h
    have hline : '\n' ∉ binaryLine p.1 ++ ' ' :: '#' :: p.2 := by
      have hdigits : '\n' ∉ binaryLine p.1 := fun hmem => absurd (isBinaryDigit_of_mem_binaryLine hmem) (by decide)
      simp [hdigits, hp]
    have hread := readTextFrom_append_newline hline []
    rw [readText] at ih ⊢
    rw [List.flatMap_cons, List.append_assoc, List.singleton_append, hread, ih hlines, List.reverse_nil,
      List.nil_append, readLine_binaryLine]
    rfl

end Sys2Proof.Machine
